-- ==== Sys2Proof/Word.lean ====
section
/-! DEFINITION. The words of the block: bytes, nibbles, line levels, and the two register selections
(00_scope.md R12). -/

namespace Sys2Proof

/-- A byte: 8 bits, bit 7 most significant (R12). -/
abbrev Byte := BitVec 8

/-- "4-bit half of a byte" (R16). -/
abbrev Nibble := BitVec 4

/-- A line level: `false` is LOW = 0, `true` is HIGH = 1 (R12). -/
abbrev Level := Bool

/-- The two transfer modes of R12: `COMMAND = 0` (mode-select line low), `DATA = 1` (mode-select line high). -/
inductive RegSel where
  | command
  | data
deriving DecidableEq, Repr

end Sys2Proof
end

