-- ==== Sys2Proof/Config.lean ====
section
/-! DEFINITION. The parameters of one block instance: the configuration inputs (00_scope.md R6), the wiring
parameters (R7), the timing parameters (R8), and the numbers supplied from general knowledge, the codes (R9) and the
string terminator (30_encoding.md R95): "a model should hold both as configuration" (93 Part 2). They are constant for
the instance's lifetime and stand in `State.config` (10_state.md R20 (d)). -/

namespace Sys2Proof

/-- `bitMode`, the "requested bit-width": `BIT4 = 0`, `BIT8 = 1` (10_state.md R30). -/
inductive BitMode where
  | bit4
  | bit8
deriving DecidableEq, Repr

/-- `font`: the default 5x8 font or the large 5x10 font (10_state.md R33). -/
inductive Font where
  | default
  | large
deriving DecidableEq, Repr

/-- `NIBBLE_BASE`, 0 or 4: the lowest of the four data lines that carry a nibble in 4-bit mode (R7). -/
inductive NibbleBase where
  | base0
  | base4
deriving DecidableEq, Repr

/-- `T_POWERON`, "a parameter constrained to be at least 40000" (92 D9, 42_init_sequencer.md R165, 90 C5). DESIGN
CHOICE (log entry 22): the spec does not say what a smaller value does, and the type has none. Safe. -/
abbrev PowerOnGuard := { n : Nat // 40000 ≤ n }

/-- The timing parameters of R8, all in microseconds, all lower bounds on elapsed time. -/
structure Timing where
  tSetup   : Nat
  tPulse   : Nat
  tSettle  : Nat
  tPowerOn : PowerOnGuard
  tH4_1    : Nat
  tH4_2    : Nat
  tH4_3    : Nat
  tH8_1    : Nat
  tH8_2    : Nat
  tClear   : Nat
  tHome    : Nat
deriving DecidableEq, Repr

/-- The numeric values of the command codes and flag bits, "parameters of the spec" (00_scope.md R9), as the
configuration record of 92 D10. `CLEARDISPLAY` is no field of it: "The source fixes only `CLEARDISPLAY = 0x01`" (R9). -/
structure Codes where
  /-- `RETURNHOME` (30_encoding.md R101). -/
  returnHome     : Byte
  /-- `ENTRYMODESET` (R105). -/
  entryModeSet   : Byte
  /-- `DISPLAYCONTROL` (R104). -/
  displayControl : Byte
  /-- `CURSORSHIFT` (R102). -/
  cursorShift    : Byte
  /-- `FUNCTIONSET` (R103). -/
  functionSet    : Byte
  /-- `SETCGRAMADDR` (R106). -/
  setCgramAddr   : Byte
  /-- `SETDDRAMADDR` (R107). -/
  setDdramAddr   : Byte
  /-- `EM_ENTRYLEFT`, the I/D flag (10_state.md R24). -/
  entryLeft      : Byte
  /-- `EM_SHIFTINC`, the S flag (R24). -/
  shiftInc       : Byte
  /-- `DC_DISPLAYON`, the D flag (R23). -/
  displayOn      : Byte
  /-- `DC_CURSORON`, the C flag (R23). -/
  cursorOn       : Byte
  /-- `DC_BLINKON`, the B flag (R23). -/
  blinkOn        : Byte
  /-- `DISPLAYMOVE` (30_encoding.md R102). -/
  displayMove    : Byte
  /-- `MOVERIGHT` (R102). -/
  moveRight      : Byte
  /-- `MOVELEFT` (R102). -/
  moveLeft       : Byte
  /-- `F_8BIT`, the DL flag set (10_state.md R22). -/
  f8Bit          : Byte
  /-- `F_4BIT`, the DL flag clear (R22). -/
  f4Bit          : Byte
  /-- `F_2LINE`, the N flag set (R22). -/
  f2Line         : Byte
  /-- `F_1LINE`, the N flag clear (R22). -/
  f1Line         : Byte
  /-- `F_5x10`, the F flag set (R22). -/
  f5x10          : Byte
  /-- `F_5x8`, the F flag clear (R22). -/
  f5x8           : Byte
  /-- The DL flag has a bit that no other value of `functionFlags` has, as in the table of R22, so that the framing is
  the width `INIT` was configured for (R22's "Must match the bus width"). DESIGN CHOICE (log entry 23): the spec does
  not say what other numbers do, and the type has none. Safe. -/
  dlApart        : (f8Bit != 0x00#8 && (f4Bit ||| f2Line ||| f1Line ||| f5x10 ||| f5x8) &&& f8Bit == 0x00#8) = true
deriving DecidableEq, Repr

/-- The configuration inputs and wiring parameters of one instance (R6, R7), with its timing parameters (R8), its
codes (R9) and the string terminator (30_encoding.md R95). -/
structure Config where
  bitMode    : BitMode
  columns    : Byte
  lines      : Byte
  font       : Font
  rwWired    : Bool
  nibbleBase : NibbleBase
  timing     : Timing
  codes      : Codes
  terminator : Byte
deriving DecidableEq, Repr

end Sys2Proof
end

