-- ==== Sys2Proof/Machine/Codes.lean ====
section
/-! DEFINITION. The numbers of the spec: the three the source fixes (30_encoding.md R100, R108), and the values the
spec gives its parameters, the command codes and flag bits (R101 to R107, 10_state.md R22 to R24), the string
terminator (30_encoding.md R95) and the source's timing figures (00_scope.md R8, 70_reset_and_hazards.md R280).
UNVERIFIED (stated by the spec, which marks it "from general knowledge"): `hd44780Codes` and `nulTerminator` (log
entry 6). Unsafe: a wrong code would make a claim that assumes these numbers false of the hardware. -/

namespace Sys2Proof.Machine

/-- `CLEARDISPLAY = 0x01`, fixed by the source (R9, R100). -/
def clearDisplayCode : Byte := 0x01#8

/-- The handshake nibble issued three times, fixed by the source (R108). -/
def handshakeNibble3 : Byte := 0x03#8

/-- The handshake nibble issued once, fixed by the source (R108). -/
def handshakeNibble2 : Byte := 0x02#8

/-- The HD44780 instruction set's values (R9, 92 D10; R101 to R107, 10_state.md R22 to R24). -/
def hd44780Codes : Codes where
  returnHome     := 0x02#8
  entryModeSet   := 0x04#8
  displayControl := 0x08#8
  cursorShift    := 0x10#8
  functionSet    := 0x20#8
  setCgramAddr   := 0x40#8
  setDdramAddr   := 0x80#8
  entryLeft      := 0x02#8
  shiftInc       := 0x01#8
  displayOn      := 0x04#8
  cursorOn       := 0x02#8
  blinkOn        := 0x01#8
  displayMove    := 0x08#8
  moveRight      := 0x04#8
  moveLeft       := 0x00#8
  f8Bit          := 0x10#8
  f4Bit          := 0x00#8
  f2Line         := 0x08#8
  f1Line         := 0x00#8
  f5x10          := 0x04#8
  f5x8           := 0x00#8
  dlApart        := by decide

/-- The string terminator, "the byte `0x00`" (R95). -/
def nulTerminator : Byte := 0x00#8

/-- `code` OR-ed with `bit` where `on` holds: one flag field of a bus command (R110). -/
def flagIf (on : Bool) (bit : Byte) : Byte := if on then bit else 0x00#8

/-- The source's timing values, the defaults of R8 (table R280). -/
def sourceTiming : Timing where
  tSetup   := 1
  tPulse   := 1
  tSettle  := 100
  tPowerOn := ⟨50000, by decide⟩
  tH4_1    := 4500
  tH4_2    := 4500
  tH4_3    := 150
  tH8_1    := 4500
  tH8_2    := 150
  tClear   := 2000
  tHome    := 2000

end Sys2Proof.Machine
end

