-- ==== Sys2Proof/Syntax.lean ====
section
/-! DEFINITION. The instructions: one constructor per row of spec/opcode_table.json, the twenty host requests
(30_encoding.md R91) first, then the eight bus commands (R100 to R107, R109) and the two handshake nibbles (R108)
that the block itself sends on the bus (R90: "A request is not a bus command"). -/

namespace Sys2Proof

/-- One constructor per row of spec/opcode_table.json. -/
inductive Instr where
  /-- INIT, 0x00 (R160). -/
  | init
  /-- CLEAR, 0x01 (R192). -/
  | clear
  /-- HOME, 0x02 (R193). -/
  | home
  /-- SETCURSOR col, row, 0x03 (R194). -/
  | setCursor (col row : Byte)
  /-- NODISPLAY, 0x04 (R197). -/
  | noDisplay
  /-- DISPLAY, 0x05 (R196). -/
  | display
  /-- NOCURSOR, 0x06 (R199). -/
  | noCursor
  /-- CURSOR, 0x07 (R198). -/
  | cursor
  /-- NOBLINK, 0x08 (R201). -/
  | noBlink
  /-- BLINK, 0x09 (R200). -/
  | blink
  /-- SCROLLL, 0x0A (R202). -/
  | scrollL
  /-- SCROLLR, 0x0B (R203). -/
  | scrollR
  /-- LTR, 0x0C (R204). -/
  | ltr
  /-- RTL, 0x0D (R205). -/
  | rtl
  /-- AUTOSCROLL, 0x0E (R206). -/
  | autoscroll
  /-- NOAUTOSCROLL, 0x0F (R207). -/
  | noAutoscroll
  /-- CREATECHAR slot, g0, ..., g7, 0x10 (R208). -/
  | createChar (slot : Byte) (glyph : Vector Byte 8)
  /-- WRSTR text, 0x11; `text` is the bytes before the terminating 0x00 (R209, R95). -/
  | wrStr (text : List Byte)
  /-- CMD value, 0x12 (R150). -/
  | cmd (value : Byte)
  /-- WRB value, 0x13 (R151). -/
  | wrb (value : Byte)
  /-- Bus command CLEARDISPLAY, `0000 0001` (R100). -/
  | clearDisplay
  /-- Bus command RETURNHOME, `0000 0010` (R101). -/
  | returnHome
  /-- Bus command ENTRYMODESET, `0000 01is` (R105): `entryLeft` is i, `shiftInc` is s. -/
  | entryModeSet (entryLeft shiftInc : Bool)
  /-- Bus command DISPLAYCONTROL, `0000 1dcb` (R104). -/
  | displayControl (d c b : Bool)
  /-- Bus command CURSORSHIFT, `0001 1r00` (R102): `right` is r. -/
  | cursorShift (right : Bool)
  /-- Bus command FUNCTIONSET, `001l nf00` (R103): `dl` is l, `twoLine` is n, `large` is f. -/
  | functionSet (dl twoLine large : Bool)
  /-- Bus command SETCGRAMADDR, `01ss s000` (R106). -/
  | setCgramAddr (slot : BitVec 3)
  /-- Bus command SETDDRAMADDR, `1aaa aaaa` (R107). -/
  | setDdramAddr (addr : BitVec 7)
  /-- The raw nibble 0x3 of the 4-bit handshake (R108). -/
  | handshake3
  /-- The raw nibble 0x2 of the 4-bit handshake (R108). -/
  | handshake2
deriving DecidableEq, Repr

/-- The twenty rows of the table with "level": "request": what a host may ask of the block (R91). -/
def Instr.isRequest : Instr → Bool
  | .init | .clear | .home | .setCursor _ _ | .noDisplay | .display | .noCursor | .cursor | .noBlink | .blink
  | .scrollL | .scrollR | .ltr | .rtl | .autoscroll | .noAutoscroll | .createChar _ _ | .wrStr _ | .cmd _
  | .wrb _ => true
  | .clearDisplay | .returnHome | .entryModeSet _ _ | .displayControl _ _ _ | .cursorShift _
  | .functionSet _ _ _ | .setCgramAddr _ | .setDdramAddr _ | .handshake3 | .handshake2 => false

/-- The eight rows of the table with "format": "bus_command": a whole command byte (R109). -/
def Instr.isBusCommand : Instr → Bool
  | .clearDisplay | .returnHome | .entryModeSet _ _ | .displayControl _ _ _ | .cursorShift _
  | .functionSet _ _ _ | .setCgramAddr _ | .setDdramAddr _ => true
  | .init | .clear | .home | .setCursor _ _ | .noDisplay | .display | .noCursor | .cursor | .noBlink | .blink
  | .scrollL | .scrollR | .ltr | .rtl | .autoscroll | .noAutoscroll | .createChar _ _ | .wrStr _ | .cmd _
  | .wrb _ | .handshake3 | .handshake2 => false

end Sys2Proof
end

