-- ==== Sys2Proof/WellFormed.lean ====
section
/-! DEFINITION. Which instruction terms stand for words of the encoding: every operand has its width in its type,
so the one check left is that a `WRSTR` text holds no terminator (30_encoding.md R92, R95). The terminator's value is
configuration (93 Part 2). -/

namespace Sys2Proof

/-- Format S carries "`n >= 0` non-zero bytes" before its terminator (R92): a text with the terminator in it has no
encoding. -/
def Instr.wellFormed (terminator : Byte) : Instr → Bool
  | .wrStr text => text.all (· != terminator)
  | .init | .clear | .home | .setCursor _ _ | .noDisplay | .display | .noCursor | .cursor | .noBlink | .blink
  | .scrollL | .scrollR | .ltr | .rtl | .autoscroll | .noAutoscroll | .createChar _ _ | .cmd _ | .wrb _
  | .clearDisplay | .returnHome | .entryModeSet _ _ | .displayControl _ _ _ | .cursorShift _
  | .functionSet _ _ _ | .setCgramAddr _ | .setDdramAddr _ | .handshake3 | .handshake2 => true

end Sys2Proof
end

