-- ==== Sys2Proof/Decode.lean ====
section
/-! DEFINITION. Decoding and encoding. Two encodings, as 30_encoding.md has two (R90): the host's request byte
stream (R91 to R96), and the bus-side command bytes and handshake nibbles (R100 to R109). Both decoders are total
and reject by name. -/

namespace Sys2Proof

/-- Why no request can be taken from the bytes offered. -/
inductive DecodeError where
  /-- There are no bytes, or they are a proper beginning of a fixed-length request: its other bytes are to come. -/
  | incomplete
  /-- The opcode byte is one of 0x14 to 0xFF, which "select no request" (R96). -/
  | reservedOpcode (b : Byte)
  /-- A format-S request "whose operand list never contains 0x00" (R96), `0x00` being the terminator (R95). -/
  | unterminated
deriving DecidableEq, Repr

/-- What the request decoder answers: the request with the bytes after it, or the reason there is none. -/
inductive Decoded where
  | ok (i : Instr) (rest : List Byte)
  | error (e : DecodeError)
deriving DecidableEq, Repr

/-- The operand of format S: the bytes before the first terminator, and those after it (R92, R95); none where there
is no terminator. -/
def splitText (terminator : Byte) : List Byte → Option (List Byte × List Byte)
  | [] => none
  | b :: bs =>
    if b = terminator then some ([], bs)
    else match splitText terminator bs with
      | some (text, rest) => some (b :: text, rest)
      | none => none

/-- Format Z: opcode only (R92). -/
def decodeZ (i : Instr) (rest : List Byte) : Decoded := .ok i rest

/-- Format B1: one operand byte (R92). -/
def decodeB1 (mk : Byte → Instr) : List Byte → Decoded
  | value :: rest => .ok (mk value) rest
  | [] => .error .incomplete

/-- Format B2: two operand bytes, `col` first (R92). -/
def decodeB2 (mk : Byte → Byte → Instr) : List Byte → Decoded
  | col :: row :: rest => .ok (mk col row) rest
  | _ => .error .incomplete

/-- Format B9: `slot`, then the eight glyph bytes in order (R92). -/
def decodeB9 (mk : Byte → Vector Byte 8 → Instr) : List Byte → Decoded
  | slot :: g0 :: g1 :: g2 :: g3 :: g4 :: g5 :: g6 :: g7 :: rest =>
    .ok (mk slot #v[g0, g1, g2, g3, g4, g5, g6, g7]) rest
  | _ => .error .incomplete

/-- Format S: the bytes up to the first terminator (R92, R96). -/
def decodeS (terminator : Byte) (mk : List Byte → Instr) (bs : List Byte) : Decoded :=
  match splitText terminator bs with
  | some (text, rest) => .ok (mk text) rest
  | none => .error .unterminated

/-- One request from the host's byte stream: the opcode byte selects the format (table of R91). -/
def decode (terminator : Byte) : List Byte → Decoded
  | [] => .error .incomplete
  | b :: bs =>
    match b.toNat with
    | 0x00 => decodeZ .init bs
    | 0x01 => decodeZ .clear bs
    | 0x02 => decodeZ .home bs
    | 0x03 => decodeB2 .setCursor bs
    | 0x04 => decodeZ .noDisplay bs
    | 0x05 => decodeZ .display bs
    | 0x06 => decodeZ .noCursor bs
    | 0x07 => decodeZ .cursor bs
    | 0x08 => decodeZ .noBlink bs
    | 0x09 => decodeZ .blink bs
    | 0x0A => decodeZ .scrollL bs
    | 0x0B => decodeZ .scrollR bs
    | 0x0C => decodeZ .ltr bs
    | 0x0D => decodeZ .rtl bs
    | 0x0E => decodeZ .autoscroll bs
    | 0x0F => decodeZ .noAutoscroll bs
    | 0x10 => decodeB9 .createChar bs
    | 0x11 => decodeS terminator .wrStr bs
    | 0x12 => decodeB1 .cmd bs
    | 0x13 => decodeB1 .wrb bs
    | _ => .error (.reservedOpcode b)

/-- A bus command byte read by the patterns of R109, each tried on its mask: the byte as one of the eight commands
the block emits, or none where it is a byte the block never emits on its own (R111). The patterns are those of the
HD44780's numbers (log entry 6). -/
def decodeBus (b : Byte) : Option Instr :=
  if b = Machine.clearDisplayCode then some .clearDisplay
  else if b = Machine.hd44780Codes.returnHome then some .returnHome
  else if b &&& 0xFC#8 = Machine.hd44780Codes.entryModeSet then some (.entryModeSet (b.getLsbD 1) (b.getLsbD 0))
  else if b &&& 0xF8#8 = Machine.hd44780Codes.displayControl then
    some (.displayControl (b.getLsbD 2) (b.getLsbD 1) (b.getLsbD 0))
  else if b &&& 0xFB#8 = Machine.hd44780Codes.cursorShift ||| Machine.hd44780Codes.displayMove then
    some (.cursorShift (b.getLsbD 2))
  else if b &&& 0xE3#8 = Machine.hd44780Codes.functionSet then
    some (.functionSet (b.getLsbD 4) (b.getLsbD 3) (b.getLsbD 2))
  else if b &&& 0xC7#8 = Machine.hd44780Codes.setCgramAddr then some (.setCgramAddr (b.extractLsb' 3 3))
  else if b &&& 0x80#8 = Machine.hd44780Codes.setDdramAddr then some (.setDdramAddr (b.extractLsb' 0 7))
  else none

/-- A raw handshake nibble (R108). -/
def decodeNibble (n : Nibble) : Option Instr :=
  if n = 0x3#4 then some .handshake3 else if n = 0x2#4 then some .handshake2 else none

/-- The byte of a bus command with the codes `k`, its code OR-ed with its flag bits (R109, R110); a handshake nibble in
the low four bits; none for a request, which is no single bus byte. A cleared field of FUNCTIONSET ORs nothing in:
DESIGN CHOICE (log entry 24). -/
def busByte (k : Codes) : Instr → Option Byte
  | .clearDisplay => some Machine.clearDisplayCode
  | .returnHome => some k.returnHome
  | .entryModeSet i s =>
    some (k.entryModeSet ||| Machine.flagIf i k.entryLeft
      ||| Machine.flagIf s k.shiftInc)
  | .displayControl d c b =>
    some (k.displayControl ||| Machine.flagIf d k.displayOn
      ||| Machine.flagIf c k.cursorOn ||| Machine.flagIf b k.blinkOn)
  | .cursorShift r =>
    some (k.cursorShift ||| k.displayMove
      ||| (if r then k.moveRight else k.moveLeft))
  | .functionSet l n f =>
    some (k.functionSet ||| Machine.flagIf l k.f8Bit
      ||| Machine.flagIf n k.f2Line ||| Machine.flagIf f k.f5x10)
  | .setCgramAddr slot => some (k.setCgramAddr ||| (slot.setWidth 8 <<< 3))
  | .setDdramAddr addr => some (k.setDdramAddr ||| addr.setWidth 8)
  | .handshake3 => some Machine.handshakeNibble3
  | .handshake2 => some Machine.handshakeNibble2
  | .init | .clear | .home | .setCursor _ _ | .noDisplay | .display | .noCursor | .cursor | .noBlink | .blink
  | .scrollL | .scrollR | .ltr | .rtl | .autoscroll | .noAutoscroll | .createChar _ _ | .wrStr _ | .cmd _
  | .wrb _ => none

/-- The words of an instruction: a request's bytes in order (R91, R92, the terminator of format S included), or the
one byte of a bus row with the HD44780's numbers (R109; a handshake nibble in the low four bits). -/
def encode (terminator : Byte) : Instr → List Byte
  | .init => [0x00#8]
  | .clear => [0x01#8]
  | .home => [0x02#8]
  | .setCursor col row => [0x03#8, col, row]
  | .noDisplay => [0x04#8]
  | .display => [0x05#8]
  | .noCursor => [0x06#8]
  | .cursor => [0x07#8]
  | .noBlink => [0x08#8]
  | .blink => [0x09#8]
  | .scrollL => [0x0A#8]
  | .scrollR => [0x0B#8]
  | .ltr => [0x0C#8]
  | .rtl => [0x0D#8]
  | .autoscroll => [0x0E#8]
  | .noAutoscroll => [0x0F#8]
  | .createChar slot glyph => 0x10#8 :: slot :: glyph.toList
  | .wrStr text => 0x11#8 :: (text ++ [terminator])
  | .cmd value => [0x12#8, value]
  | .wrb value => [0x13#8, value]
  | .clearDisplay => (busByte Machine.hd44780Codes .clearDisplay).toList
  | .returnHome => (busByte Machine.hd44780Codes .returnHome).toList
  | .entryModeSet i s => (busByte Machine.hd44780Codes (.entryModeSet i s)).toList
  | .displayControl d c b => (busByte Machine.hd44780Codes (.displayControl d c b)).toList
  | .cursorShift r => (busByte Machine.hd44780Codes (.cursorShift r)).toList
  | .functionSet l n f => (busByte Machine.hd44780Codes (.functionSet l n f)).toList
  | .setCgramAddr slot => (busByte Machine.hd44780Codes (.setCgramAddr slot)).toList
  | .setDdramAddr addr => (busByte Machine.hd44780Codes (.setDdramAddr addr)).toList
  | .handshake3 => (busByte Machine.hd44780Codes .handshake3).toList
  | .handshake2 => (busByte Machine.hd44780Codes .handshake2).toList

/-- The `n` bytes of the number `w`, the first byte least significant: how spec/opcode_table.json numbers the bits
of an instruction's words. -/
def bytesOfWord : Nat → Nat → List Byte
  | 0, _ => []
  | n + 1, w => BitVec.ofNat 8 w :: bytesOfWord n (w / 256)

/-- The longest request with a fixed length, in bytes (format B9, R92). -/
def longestRequest : Nat := 10

/-- The bytes of a table word of `nbits` bits, with zero bytes after it up to the longest fixed-length request. -/
def wordStream (nbits w : Nat) : List Byte :=
  bytesOfWord ((nbits + 7) / 8) w ++ List.replicate (longestRequest - (nbits + 7) / 8) 0x00#8

/-- The instruction of a word of the opcode table. The table mixes two encodings over the same numbers: the request
encoding is read first, and a word that selects no request (R96) is read as a bus command byte (R109). So the four
bus rows whose bytes are no request opcode are found (CURSORSHIFT, FUNCTIONSET, SETCGRAMADDR, SETDDRAMADDR), and a
bus row whose byte is also a request opcode reads as that request (log entry 12). -/
def decodeTableWord (nbits w : Nat) : Option Instr :=
  match decode Machine.nulTerminator (wordStream nbits w) with
  | .ok i _ => some i
  | .error (.reservedOpcode b) => decodeBus b
  | .error _ => none

end Sys2Proof
end

