-- ==== Sys2Proof/Machine/Event.lean ====
section
/-! DEFINITION. The lines of the block and the events it emits (00_scope.md R11, R13, R14): the alphabet of every
event list and of the trace. -/

namespace Sys2Proof.Machine

/-- The eleven output lines: `D0` to `D7`, `RS` (mode-select), `RW` (read/write), `E` (strobe) (R11). -/
inductive Line where
  | d (i : Fin 8)
  | rs
  | rw
  | e
deriving DecidableEq, Repr

/-- The line identifiers: 0 to 7 for `D0` to `D7`, 8 for `RS`, 9 for `RW`, 10 for `E` (R11). -/
def Line.id : Line → Fin 11
  | .d i => ⟨i.val, by omega⟩
  | .rs => 8
  | .rw => 9
  | .e => 10

/-- One event of the block (R14): a line write `S(id, level)`, or a timing guard `W(n)` of at least `n` µs. -/
inductive Event where
  | setLine (l : Line) (level : Level)
  | delay (n : Nat)
deriving DecidableEq, Repr

/-- The line latches `line[0..10]` (10_state.md R35), by line identifier. -/
abbrev Lines := Vector Level 11

end Sys2Proof.Machine
end

