-- ==== Sys2Proof/Machine/Operands.lean ====
section
/-! DEFINITION. Every operand form of the spec (30_encoding.md R94, R112): nibbles of a byte, the row clamp and the
DDRAM address of `SETCURSOR` (43_display_ops.md R194), the slot mask of `CREATECHAR` (R208), the text of `WRSTR`
(R209), and the row-offset table of `INIT` (42_init_sequencer.md R163). -/

namespace Sys2Proof.Machine

/-- The high nibble `value >> 4` (00_scope.md R12). -/
def highNibble (v : Byte) : Byte := v >>> 4

/-- The low nibble `v[3:0]` (R12). -/
def lowNibble (v : Byte) : Byte := v &&& 0x0F#8

/-- `ROW_TABLE_LEN`, the length of the row-offset table (10_state.md R26). -/
def rowTableLen : Nat := 4

/-- The clamped row of R194: "table-length clamp first, then line-count clamp", on natural numbers. DESIGN CHOICE
(log entry 16): for `lineCount = 0`, which no run reaches, `lineCount - 1` is taken as 0. Safe. -/
def clampRow (row lineCount : Byte) : Fin 4 :=
  ⟨min (min row.toNat (rowTableLen - 1)) (lineCount.toNat - 1), by
    have h : rowTableLen = 4 := rfl
    omega⟩

/-- `(col + rowOffsets[r2]) mod 256`, the DDRAM address `SETCURSOR` sends (R194). -/
def cursorAddress (rowOffsets : Vector Byte 4) (lineCount col row : Byte) : Byte :=
  col + rowOffsets[(clampRow row lineCount).val]

/-- `slot & 0x07`: "masks the slot index to its low 3 bits" (R208). -/
def maskSlot (slot : Byte) : Byte := slot &&& 0x07#8

/-- The CGRAM address of a slot, `(slot & 0x07) << 3` (R208, 20_memory.md R64). -/
def cgramAddress (slot : Byte) : Byte := maskSlot slot <<< 3

/-- The characters `WRSTR` sends: it "stops at terminator" (R209, R95). -/
def textBytes (terminator : Byte) (text : List Byte) : List Byte := text.takeWhile (· != terminator)

/-- Row offset `i` as `INIT` step 3 computes it, `{0x00, 0x40, 0x00 + columns, 0x40 + columns}` modulo 256
(42_init_sequencer.md R163). -/
def rowOffset (columns : Byte) : Fin 4 → Byte
  | 0 => 0x00#8
  | 1 => 0x40#8
  | 2 => 0x00#8 + columns
  | 3 => 0x40#8 + columns

end Sys2Proof.Machine
end

