-- ==== Sys2Proof/Machine/BusTransfer.lean ====
section
/-! DEFINITION. The Bus Transfer micro-operations of 40_bus_transfer.md, each "a fixed function from its operands,
`functionFlags.DL`, `RW_WIRED` and `NIBBLE_BASE` to an event list" (R130). -/

namespace Sys2Proof.Machine

/-- What a micro-operation depends on besides its operands (R130), with the timing parameters (00_scope.md R8). -/
structure BusParams where
  dl         : Bool
  rwWired    : Bool
  nibbleBase : NibbleBase
  timing     : Timing
deriving DecidableEq, Repr

/-- Data line `NIBBLE_BASE + i` (R134, 20_memory.md R68). -/
def nibbleLine (base : NibbleBase) (i : Fin 4) : Line :=
  match base with
  | .base0 => .d ⟨i.val, by omega⟩
  | .base4 => .d ⟨4 + i.val, by omega⟩

/-- The level of the mode-select line: COMMAND low, DATA high (R135). -/
def modeLevel : RegSel → Level
  | .command => false
  | .data => true

/-- `PulseStrobe()` (R131). -/
def pulseStrobe (t : Timing) : List Event :=
  [.setLine .e false, .delay t.tSetup, .setLine .e true, .delay t.tPulse, .setLine .e false, .delay t.tSettle]

/-- `Drive8(v)` (R133): bit `i` to line `i`, ascending, then the strobe. -/
def drive8 (b : BusParams) (v : Byte) : List Event :=
  [.setLine (.d 0) (v.getLsbD 0), .setLine (.d 1) (v.getLsbD 1), .setLine (.d 2) (v.getLsbD 2),
    .setLine (.d 3) (v.getLsbD 3), .setLine (.d 4) (v.getLsbD 4), .setLine (.d 5) (v.getLsbD 5),
    .setLine (.d 6) (v.getLsbD 6), .setLine (.d 7) (v.getLsbD 7)] ++ pulseStrobe b.timing

/-- `Drive4(n)` (R134): only `n[3:0]` is used; bit `i` to line `NIBBLE_BASE + i`, ascending, then the strobe. -/
def drive4 (b : BusParams) (n : Byte) : List Event :=
  [.setLine (nibbleLine b.nibbleBase 0) (n.getLsbD 0), .setLine (nibbleLine b.nibbleBase 1) (n.getLsbD 1),
    .setLine (nibbleLine b.nibbleBase 2) (n.getLsbD 2), .setLine (nibbleLine b.nibbleBase 3) (n.getLsbD 3)]
    ++ pulseStrobe b.timing

/-- `SelectRegister(mode)` (R135): `RS` first, then `RW` low where it is wired. -/
def selectRegister (b : BusParams) (mode : RegSel) : List Event :=
  .setLine .rs (modeLevel mode) :: (if b.rwWired then [.setLine .rw false] else [])

/-- `TransferByte(v, mode)` (R136): the register is selected once, then one 8-line transfer, or the high nibble and
then the low nibble. -/
def transferByte (b : BusParams) (v : Byte) (mode : RegSel) : List Event :=
  selectRegister b mode ++
    (if b.dl then drive8 b v else drive4 b (highNibble v) ++ drive4 b (lowNibble v))

/-- `command(value)` = `transferByte(value, COMMAND)` as an event list (41_dispatcher.md R150, R152). -/
def commandEvents (b : BusParams) (value : Byte) : List Event := transferByte b value .command

/-- `writeByte(value)` = `transferByte(value, DATA)` as an event list (R151, R152). -/
def writeByteEvents (b : BusParams) (value : Byte) : List Event := transferByte b value .data

/-- `writeByte` of each byte in order: the data writes of `CREATECHAR` and `WRSTR` (43_display_ops.md R208, R209). -/
def writeBytesEvents (b : BusParams) (values : List Byte) : List Event := values.flatMap (writeByteEvents b)

end Sys2Proof.Machine
end

