-- ==== Sys2Proof/Machine/Flags.lean ====
section
/-! DEFINITION. Every flag computation of the spec: setting and clearing one bit of a flag register
(43_display_ops.md section 4: "+" sets, "−" clears), the DL bit that selects the framing, and the three steps in
which `INIT` forms `functionFlags` (42_init_sequencer.md R161, R162, R164). -/

namespace Sys2Proof.Machine

/-- The "+" of the source's table: OR the bit in (R196). -/
def setFlag (flags bit : Byte) : Byte := flags ||| bit

/-- The "−" of the source's table: AND the bit out (R197). -/
def clearFlag (flags bit : Byte) : Byte := flags &&& ~~~bit

/-- The DL flag of `functionFlags`: set is an 8-bit bus, clear a 4-bit bus (10_state.md R22). DEDUCED (log entry 23):
with the codes a parameter (00_scope.md R9) the flag is the bit that `F_8BIT` has; for `F_8BIT = 0x10` it is bit 4. -/
def flagDL (k : Codes) (functionFlags : Byte) : Bool := functionFlags &&& k.f8Bit != 0x00#8

/-- The bits of `functionFlags` that the codes name; the others are "always 0" (R22). -/
def functionMask (k : Codes) : Byte := k.f8Bit ||| k.f4Bit ||| k.f2Line ||| k.f1Line ||| k.f5x10 ||| k.f5x8

/-- The bits of `displayControlFlags` that the codes name; the others are "always 0" (R23). -/
def displayMask (k : Codes) : Byte := k.displayOn ||| k.cursorOn ||| k.blinkOn

/-- The bits of `entryModeFlags` that the codes name; the others are "always 0" (R24). -/
def entryMask (k : Codes) : Byte := k.entryLeft ||| k.shiftInc

/-- A composite command byte: "the bitwise OR of the command code and its operand" (30_encoding.md R110). -/
def composite (code operand : Byte) : Byte := code ||| operand

/-- `lines > 1` (R162). -/
def Config.severalLines (c : Config) : Bool := decide (1 < c.lines.toNat)

/-- "a non-default font was requested AND line count == 1" (R164). -/
def Config.largeFontApplies (c : Config) : Bool := decide (c.font = .large ∧ c.lines.toNat = 1)

/-- `lines` in 1 to 4, the values for which `INIT` has a meaning (10_state.md R32). -/
def Config.linesLegal (c : Config) : Bool := decide (1 ≤ c.lines.toNat ∧ c.lines.toNat ≤ 4)

/-- `functionFlags` after `INIT` step 1: requested bit width and "a fixed single-line/5x8 default" (R161). -/
def functionFlags1 (c : Config) : Byte :=
  (match c.bitMode with
    | .bit8 => c.codes.f8Bit
    | .bit4 => c.codes.f4Bit) ||| c.codes.f1Line ||| c.codes.f5x8

/-- `functionFlags` after `INIT` step 2: "If configured line count > 1, OR in the two-line flag" (R162). -/
def functionFlags2 (c : Config) : Byte :=
  if Config.severalLines c then setFlag (functionFlags1 c) c.codes.f2Line else functionFlags1 c

/-- `functionFlags` after `INIT` step 4, its value for the rest of the lifetime: the large-font flag OR-ed in where
it applies (R164). -/
def initFunctionFlags (c : Config) : Byte :=
  if Config.largeFontApplies c then setFlag (functionFlags2 c) c.codes.f5x10 else functionFlags2 c

end Sys2Proof.Machine
end

