-- ==== Sys2Proof/Machine/State.lean ====
section
/-! DEFINITION. The state of one block instance (10_state.md R20), the reasons a step can stop, and the state after
reset (R50). The block has no memory (20_memory.md R60) and raises no exception (60_exceptions.md R230). -/

namespace Sys2Proof.Machine

/-- A write of one register of R20 (a) to (c), as a micro-step of a request does it (R42). -/
inductive RegWrite where
  | functionFlags (v : Byte)
  | displayControlFlags (v : Byte)
  | entryModeFlags (v : Byte)
  | lineCount (v : Byte)
  | rowOffset (i : Fin 4) (v : Byte)
deriving DecidableEq, Repr

/-- One micro-step of a request (R42): the register writes that precede an event in the request's pseudocode, done
in zero time, then the event. -/
structure Micro where
  writes : List RegWrite
  event  : Event
deriving DecidableEq, Repr

/-- A request in progress (R42): the request, `idx` the number of its events already emitted, and its micro-steps
still to come. DESIGN CHOICE (log entry 7): R42's position is the pair (request, idx); the micro-steps to come are
kept beside it because they are fixed when the request is accepted. Safe. -/
structure Progress where
  request : Instr
  idx     : Nat
  todo    : List Micro
deriving DecidableEq, Repr

/-- The sequencer position (R20 (f), R40, R42). -/
inductive Position where
  /-- After reset: `INIT` has not been accepted. -/
  | uninit
  /-- A request has been accepted and its events are being emitted. -/
  | running (p : Progress)
  /-- `INIT` has completed and no request is in progress. -/
  | ready
deriving DecidableEq, Repr

/-- The phases of R40. -/
inductive Phase where
  | uninit
  | initialising
  | ready
  | busy
deriving DecidableEq, Repr

/-- The phase of a position: while `INIT` is in progress `INITIALISING`, while any other request is `BUSY` (R40). -/
def Position.phase : Position → Phase
  | .uninit => .uninit
  | .ready => .ready
  | .running p => if p.request = .init then .initialising else .busy

/-- The state of one block instance. -/
structure State where
  /-- Flags of the FUNCTIONSET command: DL bit 4, N bit 3, F bit 2 with the numbers of the spec (R22). -/
  functionFlags       : Byte
  /-- Flags of the DISPLAYCONTROL command: D bit 2, C bit 1, B bit 0 (R23). -/
  displayControlFlags : Byte
  /-- Flags of the ENTRYMODESET command: I/D bit 1, S bit 0 (R24). -/
  entryModeFlags      : Byte
  /-- "resolved number of physical rows (1–4)" (R25). -/
  lineCount           : Byte
  /-- "DDRAM base address per row index" (R26). -/
  rowOffsets          : Vector Byte 4
  /-- Configuration inputs, wiring and timing parameters, codes and string terminator, constant for the lifetime
  (R20 (d), 00_scope.md R8, R9). -/
  config              : Config
  /-- The output line latches `line[0..10]` (R35). -/
  lines               : Lines
  /-- The sequencer position (R40, R42). -/
  pos                 : Position
  /-- The request bytes the host has offered and the block has not taken yet (30_encoding.md R92; log entry 9). -/
  inbox               : List Byte
  /-- The events emitted since reset, oldest first: the trace of R14 (log entry 8). -/
  trace               : List Event
deriving DecidableEq, Repr

/-- The hardware's own faults: none. "The complete list of synchronous exceptions is empty" (60_exceptions.md R230),
so the type has no constructor and no step can answer one. Safe: it adds no behaviour. -/
inductive Fault where
deriving DecidableEq, Repr

/-- The situations the spec refuses ("`refuse` is a verdict of the spec, not a state of the block", 92 D23). Each is
safe: the model stops where the spec gives no meaning. -/
inductive Refusal where
  /-- Raised by `exec` for an instruction that has no meaning yet, and by nothing else. Safe. -/
  | notModelled (mnemonic : String)
  /-- Raised by every request but `INIT` offered in `UNINIT` (10_state.md R41; 93 U4; 92 D17). Safe. -/
  | beforeInit
  /-- Raised by `INIT` when the phase is not `UNINIT` (R41; 93 U3). Safe. -/
  | initTwice
  /-- Raised by `INIT` when the configured `lines` is not 1 to 4 (R32; 93 U7). Safe. -/
  | linesOutOfRange
  /-- Raised by `step` on an opcode byte 0x14 to 0xFF (30_encoding.md R96; 93 U6). Safe. -/
  | reservedOpcode (b : Byte)
  /-- Raised by `step` on a `WRSTR` whose operand bytes offered hold no terminator (R96; 93 U6; log entry 9). Safe. -/
  | unterminatedString
  /-- Raised by the host action `State.configure` once `INIT` has been accepted (60_exceptions.md R245; 93 U7);
  by no instruction. Safe. -/
  | configurationFixed
deriving DecidableEq, Repr

/-- The state after reset of an instance created with the configuration `c` (R50, R51, 70_reset_and_hazards.md R260):
phase `UNINIT`, no request in progress, no event emitted, no request byte waiting. DESIGN CHOICE, unsafe: the
registers R50 calls "unwritten" hold 0x00 (log entry 3) and the lines it calls "unknown" are LOW (log entry 4). -/
def State.create (c : Config) : State where
  functionFlags       := 0x00#8
  displayControlFlags := 0x00#8
  entryModeFlags      := 0x00#8
  lineCount           := 0x00#8
  rowOffsets          := Vector.replicate 4 0x00#8
  config              := c
  lines               := Vector.replicate 11 false
  pos                 := .uninit
  inbox               := []
  trace               := []

/-- The configuration of `State.reset`: the source's own scenario `bitMode=4bit, columns=16, lines=2`, the default
font and `NIBBLE_BASE` 0 (R33, R50), a wired read/write line, the source's timing (R8), the HD44780's codes (R9) and
the terminator 0x00 (R95). DESIGN CHOICE, unsafe (log entry 5): R50 gives "the values the host supplies; no
default". -/
def sourceConfig : Config where
  bitMode    := .bit4
  columns    := 16#8
  lines      := 2#8
  font       := .default
  rwWired    := true
  nibbleBase := .base0
  timing     := sourceTiming
  codes      := hd44780Codes
  terminator := nulTerminator

/-- The machine right after reset (R50). -/
def State.reset : State := State.create sourceConfig

end Sys2Proof.Machine
end

