-- ==== Sys2Proof/Machine/Ops.lean ====
section
/-! DEFINITION. The named operations on the state: line latches, events, register writes, the micro-steps of a
request (10_state.md R42), the acceptance of requests (R41), and taking a request from the host's byte stream.
There is no exception to take or to return from: "There is no handler, no vector, no saved context, no return
instruction, no nesting" (60_exceptions.md R236). -/

namespace Sys2Proof.Machine

/-! ## Events -/

/-- The latches after an event: a line write sets its latch, a guard changes none (R35). -/
def Event.applyTo (e : Event) (ls : Lines) : Lines :=
  match e with
  | .setLine l v => ls.set l.id.val v
  | .delay _ => ls

/-- The latches after a list of events, in order. -/
def linesAfter (ls : Lines) (es : List Event) : Lines := es.foldl (fun acc e => e.applyTo acc) ls

/-- The level a line latch holds. -/
def State.level (s : State) (l : Line) : Level := s.lines[l.id.val]

/-- Emit one event: the latch it writes changes and the trace grows by it (00_scope.md R13, R14). The status a
`setLine` returns is discarded (60_exceptions.md R244). -/
def State.emit (s : State) (e : Event) : State :=
  { s with lines := e.applyTo s.lines, trace := s.trace ++ [e] }

/-- Emit a list of events in order (R14). -/
def State.emitAll (s : State) (es : List Event) : State := es.foldl State.emit s

/-! ## Register writes -/

/-- Write one register (10_state.md R22 to R26). -/
def State.write (s : State) (w : RegWrite) : State :=
  match w with
  | .functionFlags v => { s with functionFlags := v }
  | .displayControlFlags v => { s with displayControlFlags := v }
  | .entryModeFlags v => { s with entryModeFlags := v }
  | .lineCount v => { s with lineCount := v }
  | .rowOffset i v => { s with rowOffsets := s.rowOffsets.set i.val v }

/-- Write registers in order. -/
def State.writeAll (s : State) (ws : List RegWrite) : State := ws.foldl State.write s

/-! ## Micro-steps -/

/-- Do one micro-step: its register writes "happen, in zero time, before that event", then the event (R42). -/
def State.perform (s : State) (m : Micro) : State := (s.writeAll m.writes).emit m.event

/-- Do micro-steps in order. -/
def State.performAll (s : State) (todo : List Micro) : State := todo.foldl State.perform s

/-- Register writes and the events they precede, as micro-steps: the writes go with the first event (R42). -/
def segment (ws : List RegWrite) : List Event → List Micro
  | [] => []
  | e :: es => ⟨ws, e⟩ :: es.map (fun e => ⟨[], e⟩)

/-- A sequence of steps, each some register writes and then some events, as micro-steps: the writes of a step
without events go with the next event (R42; steps 1 to 4 of `INIT` "emit no event", 42_init_sequencer.md R162).
`pending` are the writes still waiting for an event. -/
def weave : List RegWrite → List (List RegWrite × List Event) → List Micro
  | _, [] => []
  | pending, (ws, es) :: steps =>
    if es.isEmpty then weave (pending ++ ws) steps
    else segment (pending ++ ws) es ++ weave [] steps

/-- The position of a request when `idx` of its events are out and `todo` are to come: "back to `READY` after the
last event" (R40), so a request without events is never in progress (log entry 17). -/
def Position.resume (request : Instr) (idx : Nat) (todo : List Micro) : Position :=
  match todo with
  | [] => .ready
  | m :: rest => .running ⟨request, idx, m :: rest⟩

/-- A request is accepted with its micro-steps: none of its events is out yet (R41, R42). -/
def State.start (s : State) (request : Instr) (todo : List Micro) : State :=
  { s with pos := .resume request 0 todo }

/-- One step of the block inside a request: "emits event `idx` and increments `idx`" (R42). -/
def State.tick (s : State) (p : Progress) : State :=
  match p.todo with
  | [] => { s with pos := .ready }
  | m :: rest => { s.perform m with pos := .resume p.request (p.idx + 1) rest }

/-- The request in progress, if any, run to its last event: "Nothing can stop, cancel or reorder a request once
accepted" (R43). -/
def State.settle (s : State) : State :=
  match s.pos with
  | .running p => { s.performAll p.todo with pos := .ready }
  | .uninit => s
  | .ready => s

/-! ## Acceptance -/

/-- The phase of R40. -/
def State.phase (s : State) : Phase := s.pos.phase

/-- What the micro-operations read of the state (40_bus_transfer.md R130). -/
def State.bus (s : State) : BusParams where
  dl := flagDL s.config.codes s.functionFlags
  rwWired := s.config.rwWired
  nibbleBase := s.config.nibbleBase
  timing := s.config.timing

/-- A request other than `INIT`: it waits until the request in progress has ended, is accepted in `READY` only, and
then runs to its last event (R41, R43; log entries 1 and 2). Offered in `UNINIT` it "is `refuse`: the spec gives it
no meaning" (R41; 93_implementation_defined.md U4, 92 D17, 95_test_vectors.md V14 and P5). -/
def State.acceptInReady (request : Instr) (program : State → List Micro) (s : State) :
    Host.Outcome State Fault Refusal :=
  match s.pos with
  | .uninit => .refused .beforeInit
  | .ready | .running _ => .next (s.settle.start request (program s.settle)).settle

/-- `INIT`: accepted in `UNINIT` only, with `lines` in 1 to 4 (R32, R41). -/
def State.acceptInUninit (program : Config → List Micro) (s : State) : Host.Outcome State Fault Refusal :=
  match s.pos with
  | .uninit =>
    if Config.linesLegal s.config then .next (s.start .init (program s.config)).settle
    else .refused .linesOutOfRange
  | .ready | .running _ => .refused .initTwice

/-- A bus command sent by the block: its events "emitted as part of the enclosing request with no phase change and
no acceptance check" (41_dispatcher.md R152). Its framing is that of the `functionFlags` the register holds (R136),
before `INIT` too (log entries 3 and 11). -/
def State.issueCommand (value : Byte) (s : State) : Host.Outcome State Fault Refusal :=
  .next (s.emitAll (commandEvents s.bus value))

/-- A raw nibble sent by the block: "the raw nibble transfer primitive directly, bypassing `command()`" (R152). It
reads no register (40_bus_transfer.md R134). -/
def State.issueNibble (n : Byte) (s : State) : Host.Outcome State Fault Refusal :=
  .next (s.emitAll (drive4 s.bus n))

/-! ## Requests from the host's byte stream -/

/-- One step of the machine, `run` being the meaning of a request: a request in progress goes on by one event
(R42); otherwise the next request is taken from the byte stream, and where there is nothing, or only a proper
beginning of a fixed-length request, the block idles (log entry 9; 70_reset_and_hazards.md R260, 60_exceptions.md R248,
92 D14). -/
def State.advance (run : Instr → State → Host.Outcome State Fault Refusal) (s : State) :
    Host.Outcome State Fault Refusal :=
  match s.pos with
  | .running p => .next (s.tick p)
  | .uninit | .ready =>
    match decode s.config.terminator s.inbox with
    | .ok i rest => run i { s with inbox := rest }
    | .error .incomplete => .next s
    | .error (.reservedOpcode b) => .refused (.reservedOpcode b)
    | .error .unterminated => .refused .unterminatedString

/-- The request bytes by which a table word reaches a block with this string terminator: the bytes of the request the
word is, and `CMD value` for a byte that is only a bus command, since "`command(x)` means the event list of `CMD(x)`"
(R152; log entry 12). -/
def requestBytes (terminator : Byte) (nbits w : Nat) : List Byte :=
  match decode nulTerminator (wordStream nbits w) with
  | .ok i _ => encode terminator i
  | .error (.reservedOpcode b) => if (decodeBus b).isSome then [0x12#8, b] else [b]
  | .error _ => bytesOfWord ((nbits + 7) / 8) w

/-- The position in which those bytes are accepted: `UNINIT` for `INIT`, `READY` for every other request (R41); bytes
that are no request leave an idle position as it is. -/
def admittingPosition (terminator : Byte) (bytes : List Byte) (pos : Position) : Position :=
  match decode terminator bytes, pos with
  | .ok .init _, _ => .uninit
  | .ok _ _, _ => .ready
  | .error _, .uninit => .uninit
  | .error _, _ => .ready

end Sys2Proof.Machine
end

