-- ==== Sys2Proof/Machine/BusCommands.lean ====
section
/-! DEFINITION. The bus rows of the opcode table as the block issues them: a command byte with `RS` low
(30_encoding.md R100 to R107, R109), or a raw handshake nibble (R108). They are no requests (R90): the block sends
them inside its requests, so each is "emitted as part of the enclosing request with no phase change and no
acceptance check" (41_dispatcher.md R152; log entry 11), in every phase. -/

namespace Sys2Proof.Machine

/-- CLEARDISPLAY, `0000 0001` (R100). -/
def execClearDisplay (s : State) : Host.Outcome State Fault Refusal := s.issueCommand clearDisplayCode

/-- RETURNHOME, `0000 0010` (R101). -/
def execReturnHome (s : State) : Host.Outcome State Fault Refusal := s.issueCommand s.config.codes.returnHome

/-- ENTRYMODESET, `0000 01is` (R105). -/
def execEntryModeSet (entryLeft shiftInc : Bool) (s : State) : Host.Outcome State Fault Refusal :=
  s.issueCommand
    (composite s.config.codes.entryModeSet
      (flagIf entryLeft s.config.codes.entryLeft ||| flagIf shiftInc s.config.codes.shiftInc))

/-- DISPLAYCONTROL, `0000 1dcb` (R104). -/
def execDisplayControl (d c b : Bool) (s : State) : Host.Outcome State Fault Refusal :=
  s.issueCommand
    (composite s.config.codes.displayControl
      (flagIf d s.config.codes.displayOn ||| flagIf c s.config.codes.cursorOn ||| flagIf b s.config.codes.blinkOn))

/-- CURSORSHIFT, `0001 1r00` (R102). -/
def execCursorShift (right : Bool) (s : State) : Host.Outcome State Fault Refusal :=
  s.issueCommand
    (composite s.config.codes.cursorShift
      (s.config.codes.displayMove ||| (if right then s.config.codes.moveRight else s.config.codes.moveLeft)))

/-- FUNCTIONSET, `001l nf00` (R103). `functionFlags` keep their value and so does the framing
(70_reset_and_hazards.md R276). A cleared field ORs nothing in: DESIGN CHOICE (log entry 24), for codes in which
`F_4BIT`, `F_1LINE` or `F_5x8` is not 0x00. -/
def execFunctionSet (dl twoLine large : Bool) (s : State) : Host.Outcome State Fault Refusal :=
  s.issueCommand
    (composite s.config.codes.functionSet
      (flagIf dl s.config.codes.f8Bit ||| flagIf twoLine s.config.codes.f2Line ||| flagIf large s.config.codes.f5x10))

/-- SETCGRAMADDR, `01ss s000` (R106). -/
def execSetCgramAddr (slot : BitVec 3) (s : State) : Host.Outcome State Fault Refusal :=
  s.issueCommand (composite s.config.codes.setCgramAddr (slot.setWidth 8 <<< 3))

/-- SETDDRAMADDR, `1aaa aaaa` (R107). -/
def execSetDdramAddr (addr : BitVec 7) (s : State) : Host.Outcome State Fault Refusal :=
  s.issueCommand (composite s.config.codes.setDdramAddr (addr.setWidth 8))

/-- The raw nibble 0x3 of the 4-bit handshake (R108, 42_init_sequencer.md R167). -/
def execHandshake3 (s : State) : Host.Outcome State Fault Refusal := s.issueNibble handshakeNibble3

/-- The raw nibble 0x2 of the 4-bit handshake (R108, R167). -/
def execHandshake2 (s : State) : Host.Outcome State Fault Refusal := s.issueNibble handshakeNibble2

end Sys2Proof.Machine
end

