-- ==== Sys2Proof/Machine/Dispatcher.lean ====
section
/-! DEFINITION. The Command/Data Dispatcher requests `CMD` and `WRB` (41_dispatcher.md): "Two thin entry points over
Bus Transfer". -/

namespace Sys2Proof.Machine

/-- The micro-steps of `CMD value` (R150). -/
def cmdProgram (value : Byte) (s : State) : List Micro := segment [] (commandEvents s.bus value)

/-- The micro-steps of `WRB value` (R151). -/
def wrbProgram (value : Byte) (s : State) : List Micro := segment [] (writeByteEvents s.bus value)

/-- `CMD value` (R150): the value is not inspected and no register is written. -/
def execCmd (value : Byte) (s : State) : Host.Outcome State Fault Refusal :=
  s.acceptInReady (.cmd value) (cmdProgram value)

/-- `WRB value` (R151): the byte is sent unchanged. -/
def execWrb (value : Byte) (s : State) : Host.Outcome State Fault Refusal :=
  s.acceptInReady (.wrb value) (wrbProgram value)

end Sys2Proof.Machine
end

