-- ==== Sys2Proof/Machine/DisplayOps.lean ====
section
/-! DEFINITION. The Display Operations requests (43_display_ops.md). Each "mutates the relevant flag field (where
applicable) then issues exactly one command", with the departures its own rule lists (R190), and is accepted in
phase `READY` only (R191). -/

namespace Sys2Proof.Machine

/-! ## Shared shapes -/

/-- A request that sends one command and nothing else. -/
def commandProgram (value : Byte) (s : State) : List Micro := segment [] (commandEvents s.bus value)

/-- A request that sends one command and then waits. -/
def guardedProgram (value : Byte) (guardTime : Timing → Nat) (s : State) : List Micro :=
  segment [] (commandEvents s.bus value ++ [.delay (guardTime s.config.timing)])

/-- A request that writes `displayControlFlags` and sends `DISPLAYCONTROL | displayControlFlags` (R190, R196). -/
def displayControlProgram (flags : Byte) (s : State) : List Micro :=
  segment [.displayControlFlags flags] (commandEvents s.bus (composite s.config.codes.displayControl flags))

/-- A request that writes `entryModeFlags` and sends `ENTRYMODESET | entryModeFlags` (R190, R204). -/
def entryModeProgram (flags : Byte) (s : State) : List Micro :=
  segment [.entryModeFlags flags] (commandEvents s.bus (composite s.config.codes.entryModeSet flags))

/-! ## Micro-steps of each request -/

/-- R192: CLEARDISPLAY, then `W(T_CLEAR)`. -/
def clearProgram (s : State) : List Micro := guardedProgram clearDisplayCode Timing.tClear s

/-- R193: RETURNHOME, then `W(T_HOME)`. -/
def homeProgram (s : State) : List Micro := guardedProgram s.config.codes.returnHome Timing.tHome s

/-- R194: `SETDDRAMADDR | addr`. -/
def setCursorProgram (col row : Byte) (s : State) : List Micro :=
  commandProgram (composite s.config.codes.setDdramAddr (cursorAddress s.rowOffsets s.lineCount col row)) s

/-- R196. -/
def displayProgram (s : State) : List Micro :=
  displayControlProgram (setFlag s.displayControlFlags s.config.codes.displayOn) s

/-- R197. -/
def noDisplayProgram (s : State) : List Micro :=
  displayControlProgram (clearFlag s.displayControlFlags s.config.codes.displayOn) s

/-- R198. -/
def cursorProgram (s : State) : List Micro :=
  displayControlProgram (setFlag s.displayControlFlags s.config.codes.cursorOn) s

/-- R199. -/
def noCursorProgram (s : State) : List Micro :=
  displayControlProgram (clearFlag s.displayControlFlags s.config.codes.cursorOn) s

/-- R200. -/
def blinkProgram (s : State) : List Micro :=
  displayControlProgram (setFlag s.displayControlFlags s.config.codes.blinkOn) s

/-- R201. -/
def noBlinkProgram (s : State) : List Micro :=
  displayControlProgram (clearFlag s.displayControlFlags s.config.codes.blinkOn) s

/-- R202: `CURSORSHIFT | DISPLAYMOVE | MOVELEFT`. -/
def scrollLProgram (s : State) : List Micro :=
  commandProgram (s.config.codes.cursorShift ||| s.config.codes.displayMove ||| s.config.codes.moveLeft) s

/-- R203: `CURSORSHIFT | DISPLAYMOVE | MOVERIGHT`. -/
def scrollRProgram (s : State) : List Micro :=
  commandProgram (s.config.codes.cursorShift ||| s.config.codes.displayMove ||| s.config.codes.moveRight) s

/-- R204. -/
def ltrProgram (s : State) : List Micro := entryModeProgram (setFlag s.entryModeFlags s.config.codes.entryLeft) s

/-- R205. -/
def rtlProgram (s : State) : List Micro := entryModeProgram (clearFlag s.entryModeFlags s.config.codes.entryLeft) s

/-- R206. -/
def autoscrollProgram (s : State) : List Micro :=
  entryModeProgram (setFlag s.entryModeFlags s.config.codes.shiftInc) s

/-- R207. -/
def noAutoscrollProgram (s : State) : List Micro :=
  entryModeProgram (clearFlag s.entryModeFlags s.config.codes.shiftInc) s

/-- R208: `SETCGRAMADDR | (s << 3)`, then the eight glyph bytes, whole, in order. -/
def createCharProgram (slot : Byte) (glyph : Vector Byte 8) (s : State) : List Micro :=
  segment [] (commandEvents s.bus (composite s.config.codes.setCgramAddr (cgramAddress slot))
    ++ writeBytesEvents s.bus glyph.toList)

/-- R209: one data write per character, the terminator not sent. -/
def wrStrProgram (text : List Byte) (s : State) : List Micro :=
  segment [] (writeBytesEvents s.bus (textBytes s.config.terminator text))

/-! ## The meanings -/

/-- `CLEAR` (R192). -/
def execClear (s : State) : Host.Outcome State Fault Refusal := s.acceptInReady .clear clearProgram

/-- `HOME` (R193). -/
def execHome (s : State) : Host.Outcome State Fault Refusal := s.acceptInReady .home homeProgram

/-- `SETCURSOR col, row` (R194). -/
def execSetCursor (col row : Byte) (s : State) : Host.Outcome State Fault Refusal :=
  s.acceptInReady (.setCursor col row) (setCursorProgram col row)

/-- `NODISPLAY` (R197). -/
def execNoDisplay (s : State) : Host.Outcome State Fault Refusal := s.acceptInReady .noDisplay noDisplayProgram

/-- `DISPLAY` (R196). -/
def execDisplay (s : State) : Host.Outcome State Fault Refusal := s.acceptInReady .display displayProgram

/-- `NOCURSOR` (R199). -/
def execNoCursor (s : State) : Host.Outcome State Fault Refusal := s.acceptInReady .noCursor noCursorProgram

/-- `CURSOR` (R198). -/
def execCursor (s : State) : Host.Outcome State Fault Refusal := s.acceptInReady .cursor cursorProgram

/-- `NOBLINK` (R201). -/
def execNoBlink (s : State) : Host.Outcome State Fault Refusal := s.acceptInReady .noBlink noBlinkProgram

/-- `BLINK` (R200). -/
def execBlink (s : State) : Host.Outcome State Fault Refusal := s.acceptInReady .blink blinkProgram

/-- `SCROLLL` (R202). -/
def execScrollL (s : State) : Host.Outcome State Fault Refusal := s.acceptInReady .scrollL scrollLProgram

/-- `SCROLLR` (R203). -/
def execScrollR (s : State) : Host.Outcome State Fault Refusal := s.acceptInReady .scrollR scrollRProgram

/-- `LTR` (R204). -/
def execLtr (s : State) : Host.Outcome State Fault Refusal := s.acceptInReady .ltr ltrProgram

/-- `RTL` (R205). -/
def execRtl (s : State) : Host.Outcome State Fault Refusal := s.acceptInReady .rtl rtlProgram

/-- `AUTOSCROLL` (R206). -/
def execAutoscroll (s : State) : Host.Outcome State Fault Refusal := s.acceptInReady .autoscroll autoscrollProgram

/-- `NOAUTOSCROLL` (R207). -/
def execNoAutoscroll (s : State) : Host.Outcome State Fault Refusal :=
  s.acceptInReady .noAutoscroll noAutoscrollProgram

/-- `CREATECHAR slot, g0, ..., g7` (R208). -/
def execCreateChar (slot : Byte) (glyph : Vector Byte 8) (s : State) : Host.Outcome State Fault Refusal :=
  s.acceptInReady (.createChar slot glyph) (createCharProgram slot glyph)

/-- `WRSTR text` (R209). -/
def execWrStr (text : List Byte) (s : State) : Host.Outcome State Fault Refusal :=
  s.acceptInReady (.wrStr text) (wrStrProgram text)

end Sys2Proof.Machine
end

