-- ==== Sys2Proof/Machine/Init.lean ====
section
/-! DEFINITION. The Initialization Sequencer request `INIT` (42_init_sequencer.md): its eleven steps (R161 to R172)
and the same sequence as the state table of R175. -/

namespace Sys2Proof.Machine

/-- What the micro-operations of `INIT` depend on: `functionFlags` as steps 1 to 4 leave them, and the wiring. -/
def initBus (c : Config) : BusParams where
  dl := flagDL c.codes (initFunctionFlags c)
  rwWired := c.rwWired
  nibbleBase := c.nibbleBase
  timing := c.timing

/-- The FUNCTIONSET byte of `INIT`, `FUNCTIONSET | functionFlags` (R168, R169). -/
def initFunctionSet (c : Config) : Byte := composite c.codes.functionSet (initFunctionFlags c)

/-- Step 1 (R161). -/
def initWrites1 (c : Config) : List RegWrite := [.functionFlags (functionFlags1 c)]

/-- Step 2, with the write `lineCount <- lines` placed here (R162). -/
def initWrites2 (c : Config) : List RegWrite :=
  (if Config.severalLines c then [.functionFlags (functionFlags2 c)] else []) ++ [.lineCount c.lines]

/-- Step 3 (R163): "All four entries are written whatever `lines` is". -/
def initWrites3 (c : Config) : List RegWrite :=
  [.rowOffset 0 (rowOffset c.columns 0), .rowOffset 1 (rowOffset c.columns 1),
    .rowOffset 2 (rowOffset c.columns 2), .rowOffset 3 (rowOffset c.columns 3)]

/-- Step 4 (R164). -/
def initWrites4 (c : Config) : List RegWrite :=
  if Config.largeFontApplies c then [.functionFlags (initFunctionFlags c)] else []

/-- Step 5, the power-on settle delay (R165). -/
def initPowerOn (c : Config) : List Event := [.delay c.timing.tPowerOn.val]

/-- Step 6: `RS`, `E`, and `RW` where wired, forced low (R166). -/
def initForceLow (c : Config) : List Event :=
  [.setLine .rs false, .setLine .e false] ++ (if c.rwWired then [.setLine .rw false] else [])

/-- Step 7 for a 4-bit target: the raw nibbles (R167). -/
def initHandshake4 (c : Config) : List Event :=
  drive4 (initBus c) handshakeNibble3 ++ [.delay c.timing.tH4_1]
    ++ drive4 (initBus c) handshakeNibble3 ++ [.delay c.timing.tH4_2]
    ++ drive4 (initBus c) handshakeNibble3 ++ [.delay c.timing.tH4_3]
    ++ drive4 (initBus c) handshakeNibble2

/-- Step 7 for an 8-bit target: FUNCTIONSET three times (R168). -/
def initHandshake8 (c : Config) : List Event :=
  commandEvents (initBus c) (initFunctionSet c) ++ [.delay c.timing.tH8_1]
    ++ commandEvents (initBus c) (initFunctionSet c) ++ [.delay c.timing.tH8_2]
    ++ commandEvents (initBus c) (initFunctionSet c)

/-- Step 7, "the only branch anywhere, taken once on `bitMode`" (10_state.md R42). -/
def initHandshake (c : Config) : List Event :=
  match c.bitMode with
  | .bit4 => initHandshake4 c
  | .bit8 => initHandshake8 c

/-- The eleven steps of `INIT` in order, each with its register writes and its events (R160). -/
def initSteps (c : Config) : List (List RegWrite × List Event) :=
  [ (initWrites1 c, []),
    (initWrites2 c, []),
    (initWrites3 c, []),
    (initWrites4 c, []),
    ([], initPowerOn c),
    ([], initForceLow c),
    ([], initHandshake c),
    ([], commandEvents (initBus c) (initFunctionSet c)),
    ([.displayControlFlags c.codes.displayOn],
      commandEvents (initBus c) (composite c.codes.displayControl c.codes.displayOn)),
    ([], commandEvents (initBus c) clearDisplayCode ++ [.delay c.timing.tClear]),
    ([.entryModeFlags c.codes.entryLeft],
      commandEvents (initBus c) (composite c.codes.entryModeSet c.codes.entryLeft)) ]

/-- The micro-steps of `INIT` (R160). -/
def initProgram (c : Config) : List Micro := weave [] (initSteps c)

/-- `INIT` (R160): accepted once, in `UNINIT`, with `lines` in 1 to 4. -/
def execInit (s : State) : Host.Outcome State Fault Refusal := s.acceptInUninit initProgram

/-! ## The sequence as a state table (R175) -/

/-- The states of R175. -/
inductive InitState where
  | idle
  | derive
  | powerWait
  | forceLow
  | h4A
  | h4B
  | h4C
  | h4D
  | h8A
  | h8B
  | h8C
  | fset
  | disp
  | clear
  | entry
  | done
deriving DecidableEq, Repr

/-- The column "next" of R175: unconditional but for the branch on `bitMode` after `I_FORCELOW`; none for `I_DONE`. -/
def initNext (bitMode : BitMode) : InitState → Option InitState
  | .idle => some .derive
  | .derive => some .powerWait
  | .powerWait => some .forceLow
  | .forceLow =>
    match bitMode with
    | .bit4 => some .h4A
    | .bit8 => some .h8A
  | .h4A => some .h4B
  | .h4B => some .h4C
  | .h4C => some .h4D
  | .h4D => some .fset
  | .h8A => some .h8B
  | .h8B => some .h8C
  | .h8C => some .fset
  | .fset => some .disp
  | .disp => some .clear
  | .clear => some .entry
  | .entry => some .done
  | .done => none

/-- The column "emits" of R175, with the register writes of the states that do some. -/
def initEmits (c : Config) : InitState → List RegWrite × List Event
  | .idle => ([], [])
  | .derive => (initWrites1 c ++ initWrites2 c ++ initWrites3 c ++ initWrites4 c, [])
  | .powerWait => ([], [.delay c.timing.tPowerOn.val])
  | .forceLow => ([], initForceLow c)
  | .h4A => ([], drive4 (initBus c) handshakeNibble3 ++ [.delay c.timing.tH4_1])
  | .h4B => ([], drive4 (initBus c) handshakeNibble3 ++ [.delay c.timing.tH4_2])
  | .h4C => ([], drive4 (initBus c) handshakeNibble3 ++ [.delay c.timing.tH4_3])
  | .h4D => ([], drive4 (initBus c) handshakeNibble2)
  | .h8A => ([], commandEvents (initBus c) (initFunctionSet c) ++ [.delay c.timing.tH8_1])
  | .h8B => ([], commandEvents (initBus c) (initFunctionSet c) ++ [.delay c.timing.tH8_2])
  | .h8C => ([], commandEvents (initBus c) (initFunctionSet c))
  | .fset => ([], commandEvents (initBus c) (initFunctionSet c))
  | .disp =>
    ([.displayControlFlags c.codes.displayOn],
      commandEvents (initBus c) (composite c.codes.displayControl c.codes.displayOn))
  | .clear => ([], commandEvents (initBus c) clearDisplayCode ++ [.delay c.timing.tClear])
  | .entry =>
    ([.entryModeFlags c.codes.entryLeft],
      commandEvents (initBus c) (composite c.codes.entryModeSet c.codes.entryLeft))
  | .done => ([], [])

/-- What the state table does from `st` on, for at most `fuel` states. -/
def initWalk (c : Config) : Nat → InitState → List (List RegWrite × List Event)
  | 0, _ => []
  | fuel + 1, st =>
    initEmits c st :: (match initNext c.bitMode st with
      | some st' => initWalk c fuel st'
      | none => [])

end Sys2Proof.Machine
end

