-- ==== Sys2Proof/Machine/Dispatch.lean ====
section
/-! DEFINITION. The meaning of every instruction, one arm per constructor of Instr. -/

namespace Sys2Proof.Machine

def exec (i : Instr) (s : State) : Host.Outcome State Fault Refusal :=
  match i with
  | .init => Sys2Proof.Machine.execInit s
  | .clear => Sys2Proof.Machine.execClear s
  | .home => Sys2Proof.Machine.execHome s
  | .setCursor col row => Sys2Proof.Machine.execSetCursor col row s
  | .noDisplay => Sys2Proof.Machine.execNoDisplay s
  | .display => Sys2Proof.Machine.execDisplay s
  | .noCursor => Sys2Proof.Machine.execNoCursor s
  | .cursor => Sys2Proof.Machine.execCursor s
  | .noBlink => Sys2Proof.Machine.execNoBlink s
  | .blink => Sys2Proof.Machine.execBlink s
  | .scrollL => Sys2Proof.Machine.execScrollL s
  | .scrollR => Sys2Proof.Machine.execScrollR s
  | .ltr => Sys2Proof.Machine.execLtr s
  | .rtl => Sys2Proof.Machine.execRtl s
  | .autoscroll => Sys2Proof.Machine.execAutoscroll s
  | .noAutoscroll => Sys2Proof.Machine.execNoAutoscroll s
  | .createChar slot glyph => Sys2Proof.Machine.execCreateChar slot glyph s
  | .wrStr text => Sys2Proof.Machine.execWrStr text s
  | .cmd value => Sys2Proof.Machine.execCmd value s
  | .wrb value => Sys2Proof.Machine.execWrb value s
  -- the bus rows: commands and nibbles the block itself sends
  | .clearDisplay => Sys2Proof.Machine.execClearDisplay s
  | .returnHome => Sys2Proof.Machine.execReturnHome s
  | .entryModeSet entryLeft shiftInc => Sys2Proof.Machine.execEntryModeSet entryLeft shiftInc s
  | .displayControl d c b => Sys2Proof.Machine.execDisplayControl d c b s
  | .cursorShift right => Sys2Proof.Machine.execCursorShift right s
  | .functionSet dl twoLine large => Sys2Proof.Machine.execFunctionSet dl twoLine large s
  | .setCgramAddr slot => Sys2Proof.Machine.execSetCgramAddr slot s
  | .setDdramAddr addr => Sys2Proof.Machine.execSetDdramAddr addr s
  | .handshake3 => Sys2Proof.Machine.execHandshake3 s
  | .handshake2 => Sys2Proof.Machine.execHandshake2 s

end Sys2Proof.Machine
end

