-- ==== Sys2Proof/Machine/Step.lean ====
section
/-! DEFINITION. The step of the machine. -/

namespace Sys2Proof.Machine

/-- One step: a request in progress goes on by one event; otherwise the next request is taken and run (log
entry 1). -/
def step (s : State) : Host.Outcome State Fault Refusal := s.advance exec

/-- `s` with the instruction of a table word put first in the host's byte stream, in the position in which the block
accepts it, so that the next step runs it (log entry 12). -/
def State.withFetchWord (s : State) (nbits w : Nat) : State :=
  { s with
    inbox := requestBytes s.config.terminator nbits w ++ s.inbox
    pos := admittingPosition s.config.terminator (requestBytes s.config.terminator nbits w) s.pos }

end Sys2Proof.Machine
end

