-- ==== Sys2Proof/Machine/HostActions.lean ====
section
/-! DEFINITION. What the host does to an instance besides having its requests run (60_exceptions.md R245): it
supplies the configuration before `INIT`, offers request bytes, and starts a new lifetime. None is an instruction. -/

namespace Sys2Proof.Machine

/-- The host supplies the configuration "before `INIT`" and must not "change them after `INIT`" (R245); a change
after `INIT` is refused (93 U7). -/
def State.configure (c : Config) (s : State) : Host.Outcome State Fault Refusal :=
  match s.pos with
  | .uninit => .next { s with config := c }
  | .running _ => .refused .configurationFixed
  | .ready => .refused .configurationFixed

/-- The host offers request bytes: they wait behind those already offered (20_memory.md R76, 92 D14). -/
def State.offer (bytes : List Byte) (s : State) : State := { s with inbox := s.inbox ++ bytes }

/-- Reset: a new lifetime begins with the configuration `c`, and nothing of the old state remains (10_state.md R50,
60_exceptions.md R248, 70_reset_and_hazards.md R263). -/
def State.restart (c : Config) (_ : State) : State := State.create c

end Sys2Proof.Machine
end

