-- ==== Sys2Proof/Machine/Observe.lean ====
section
/-! DEFINITION. What can be read from a trace: the latched-word view (00_scope.md R15), the bytes the latched words
form (20_memory.md R68), minimum durations and the spacing of latch points (70_reset_and_hazards.md R271, R281).
"a derived observation for proofs and tests; the normative output is the trace" (R15). -/

namespace Sys2Proof.Machine

/-- The data lines in use at a latch point: eight in 8-bit mode, four in 4-bit mode (R15). -/
inductive LatchedData where
  | byte (v : Byte)
  | nibble (n : Nibble)
deriving DecidableEq, Repr

/-- The latched word: the levels of `RS`, of `RW` when wired, and of the data lines in use (R15). -/
structure Latched where
  rs   : Level
  rw   : Option Level
  data : LatchedData
deriving DecidableEq, Repr

/-- The level a vector of latches holds for a line. -/
def levelOf (ls : Lines) (l : Line) : Level := ls[l.id.val]

/-- The byte held by `D7..D0`. -/
def dataByte (ls : Lines) : Byte :=
  BitVec.ofBool (levelOf ls (.d 7)) ++ BitVec.ofBool (levelOf ls (.d 6)) ++ BitVec.ofBool (levelOf ls (.d 5))
    ++ BitVec.ofBool (levelOf ls (.d 4)) ++ BitVec.ofBool (levelOf ls (.d 3)) ++ BitVec.ofBool (levelOf ls (.d 2))
    ++ BitVec.ofBool (levelOf ls (.d 1)) ++ BitVec.ofBool (levelOf ls (.d 0))

/-- The nibble held by `D[NIBBLE_BASE+3]..D[NIBBLE_BASE]`. -/
def dataNibble (base : NibbleBase) (ls : Lines) : Nibble :=
  BitVec.ofBool (levelOf ls (nibbleLine base 3)) ++ BitVec.ofBool (levelOf ls (nibbleLine base 2))
    ++ BitVec.ofBool (levelOf ls (nibbleLine base 1)) ++ BitVec.ofBool (levelOf ls (nibbleLine base 0))

/-- The latched word the latches would give (R15). -/
def latchedNow (b : BusParams) (ls : Lines) : Latched where
  rs := levelOf ls .rs
  rw := if b.rwWired then some (levelOf ls .rw) else none
  data := if b.dl then .byte (dataByte ls) else .nibble (dataNibble b.nibbleBase ls)

/-- The latched words of an event list from given latches: one for each `S(E, 0)` that finds `E` at level 1 (R15). -/
def latchedWords (b : BusParams) : Lines → List Event → List Latched
  | _, [] => []
  | ls, e :: es =>
    (match e with
      | .setLine .e false => if levelOf ls .e then [latchedNow b ls] else []
      | _ => []) ++ latchedWords b (e.applyTo ls) es

/-- The bytes that latched words form, each with its `RS` level: one word is a byte in 8-bit mode, two successive
words are one in 4-bit mode, "(high nibble then low nibble)" (R68). -/
def receivedBytes : List Latched → List (Level × Byte)
  | [] => []
  | ⟨rs, _, .byte v⟩ :: rest => (rs, v) :: receivedBytes rest
  | ⟨rs, _, .nibble h⟩ :: ⟨_, _, .nibble l⟩ :: rest => (rs, h ++ l) :: receivedBytes rest
  | ⟨_, _, .nibble _⟩ :: ⟨_, _, .byte _⟩ :: _ => []
  | [⟨_, _, .nibble _⟩] => []

/-- The bytes a list of events puts into the controller's latch from given latches. -/
def sentBytes (b : BusParams) (ls : Lines) (es : List Event) : List (Level × Byte) :=
  receivedBytes (latchedWords b ls es)

/-- The last byte sent with `RS` low that a predicate picks out, or `before` where there is none. -/
def lastCommand (pick : Byte → Bool) (before : Byte) (bytes : List (Level × Byte)) : Byte :=
  bytes.foldl (fun acc x => if !x.1 && pick x.2 then x.2 else acc) before

/-- A DISPLAYCONTROL byte, `0000 1dcb` (30_encoding.md R109). -/
def isDisplayControl (v : Byte) : Bool := v &&& 0xF8#8 == hd44780Codes.displayControl

/-- An ENTRYMODESET byte, `0000 01is` (R109). -/
def isEntryModeSet (v : Byte) : Bool := v &&& 0xFC#8 == hd44780Codes.entryModeSet

/-- The guard of an event, 0 for a line write. -/
def Event.guard : Event → Nat
  | .delay n => n
  | .setLine _ _ => 0

/-- The minimum duration of an event list: the sum of its guards (R174, R212, R281). -/
def minDuration (es : List Event) : Nat := (es.map Event.guard).sum

/-- No data, `RS` or `RW` line is written while `E` is high, `high` being the level of `E` at the start (R138). -/
def quietWhileHigh : Level → List Event → Bool
  | _, [] => true
  | _, .setLine .e v :: es => quietWhileHigh v es
  | high, .setLine (.d _) _ :: es => !high && quietWhileHigh high es
  | high, .setLine .rs _ :: es => !high && quietWhileHigh high es
  | high, .setLine .rw _ :: es => !high && quietWhileHigh high es
  | high, .delay _ :: es => quietWhileHigh high es

/-- For each latch point of an event list, the guards since the latch point before it; `high` is the level of `E`
and `gap` the guards since the last latch point at the start (R281). -/
def latchGaps : Level → Nat → List Event → List Nat
  | _, _, [] => []
  | high, gap, .delay n :: es => latchGaps high (gap + n) es
  | high, gap, .setLine .e v :: es =>
    if high && !v then gap :: latchGaps v 0 es else latchGaps v gap es
  | high, gap, .setLine (.d _) _ :: es => latchGaps high gap es
  | high, gap, .setLine .rs _ :: es => latchGaps high gap es
  | high, gap, .setLine .rw _ :: es => latchGaps high gap es

/-- After every latch point at least `settle` µs of guards pass before any line is written again; `gap` as in
`latchGaps` (R271). -/
def settledWrites (settle : Nat) : Level → Nat → List Event → Bool
  | _, _, [] => true
  | high, gap, .delay n :: es => settledWrites settle high (gap + n) es
  | high, gap, .setLine .e v :: es =>
    decide (settle ≤ gap) && (if high && !v then settledWrites settle v 0 es else settledWrites settle v gap es)
  | high, gap, .setLine (.d _) _ :: es => decide (settle ≤ gap) && settledWrites settle high gap es
  | high, gap, .setLine .rs _ :: es => decide (settle ≤ gap) && settledWrites settle high gap es
  | high, gap, .setLine .rw _ :: es => decide (settle ≤ gap) && settledWrites settle high gap es

/-- The guards since the last latch point at the end of an event list (R281). -/
def gapAfter : Level → Nat → List Event → Nat
  | _, gap, [] => gap
  | high, gap, .delay n :: es => gapAfter high (gap + n) es
  | high, gap, .setLine .e v :: es => if high && !v then gapAfter v 0 es else gapAfter v gap es
  | high, gap, .setLine (.d _) _ :: es => gapAfter high gap es
  | high, gap, .setLine .rs _ :: es => gapAfter high gap es
  | high, gap, .setLine .rw _ :: es => gapAfter high gap es

end Sys2Proof.Machine
end

