-- ==== Sys2Proof/Machine/Programs.lean ====
section
/-! DEFINITION. The micro-steps of every request as one function (10_state.md R42), so that a claim can speak of
"the request's event list" (00_scope.md R14) for any request. -/

namespace Sys2Proof.Machine

/-- The micro-steps of a request accepted in the state `s`; none for a bus row, which is no request (30_encoding.md
R90). -/
def programOf (i : Instr) (s : State) : List Micro :=
  match i with
  | .init => initProgram s.config
  | .clear => clearProgram s
  | .home => homeProgram s
  | .setCursor col row => setCursorProgram col row s
  | .noDisplay => noDisplayProgram s
  | .display => displayProgram s
  | .noCursor => noCursorProgram s
  | .cursor => cursorProgram s
  | .noBlink => noBlinkProgram s
  | .blink => blinkProgram s
  | .scrollL => scrollLProgram s
  | .scrollR => scrollRProgram s
  | .ltr => ltrProgram s
  | .rtl => rtlProgram s
  | .autoscroll => autoscrollProgram s
  | .noAutoscroll => noAutoscrollProgram s
  | .createChar slot glyph => createCharProgram slot glyph s
  | .wrStr text => wrStrProgram text s
  | .cmd value => cmdProgram value s
  | .wrb value => wrbProgram value s
  | .clearDisplay | .returnHome | .entryModeSet _ _ | .displayControl _ _ _ | .cursorShift _
  | .functionSet _ _ _ | .setCgramAddr _ | .setDdramAddr _ | .handshake3 | .handshake2 => []

/-- The event list of a request accepted in the state `s` (R14). -/
def eventsOf (i : Instr) (s : State) : List Event := (programOf i s).map Micro.event

end Sys2Proof.Machine
end

