-- ==== Sys2Proof/Safety.lean ====
section
/-! DEFINITION. What counts as a good state: the invariants the spec states over the registers (10_state.md R22 to
R27), the wiring rules (R34, R35) and the strobe line (40_bus_transfer.md R138). -/

namespace Sys2Proof.Safety

open Sys2Proof.Machine

/-- A register write keeps the register's form: the flag bits that the codes do not name are 0 (R22, R23, R24) and
`lineCount` is 1 to 4 (R25). -/
def writeLegal (k : Codes) : RegWrite → Bool
  | .functionFlags v => v &&& ~~~functionMask k == 0x00#8
  | .displayControlFlags v => v &&& ~~~displayMask k == 0x00#8
  | .entryModeFlags v => v &&& ~~~entryMask k == 0x00#8
  | .lineCount v => decide (1 ≤ v.toNat ∧ v.toNat ≤ 4)
  | .rowOffset _ _ => true

/-- An event an instance of this configuration may emit: `RW` only where it is wired (R34), and in 4-bit mode only
the four data lines that carry a nibble (R35, 20_memory.md R61). -/
def eventAllowed (c : Config) : Event → Bool
  | .delay _ => true
  | .setLine (.d i) _ =>
    decide (c.bitMode = .bit8) || (List.finRange 4).any (fun j => nibbleLine c.nibbleBase j == Line.d i)
  | .setLine .rs _ => true
  | .setLine .rw _ => c.rwWired
  | .setLine .e _ => true

/-- The flag bits that the codes do not name are 0 (R22, R23, R24). -/
abbrev ReservedClear (s : State) : Prop :=
  s.functionFlags &&& ~~~functionMask s.config.codes = 0x00#8 ∧
    s.displayControlFlags &&& ~~~displayMask s.config.codes = 0x00#8 ∧
    s.entryModeFlags &&& ~~~entryMask s.config.codes = 0x00#8

/-- What holds whenever the block is `READY`: the registers `INIT` wrote still hold what it wrote (R22, R25, R26,
R27 (1)), and `E` is low, and `RW` where it is wired (R138). -/
abbrev Configured (s : State) : Prop :=
  s.functionFlags = initFunctionFlags s.config ∧ Config.linesLegal s.config = true ∧
    s.lineCount = s.config.lines ∧
    (∀ i : Fin 4, s.rowOffsets[i.val] = rowOffset s.config.columns i) ∧
    s.level .e = false ∧ (s.config.rwWired = true → s.level .rw = false)

/-- The micro-steps still to come of the request in progress. -/
def pendingSteps (s : State) : List Micro :=
  match s.pos with
  | .running p => p.todo
  | .uninit => []
  | .ready => []

/-- A request in progress is a request of the host and has an event to come (10_state.md R40, R42). -/
def positionSound (s : State) : Bool :=
  match s.pos with
  | .running p => p.request.isRequest && !p.todo.isEmpty
  | .uninit => true
  | .ready => true

/-- The invariant of the machine. The last clause speaks of the state in which the request in progress ends. -/
abbrev Inv (s : State) : Prop :=
  ReservedClear s ∧ positionSound s = true ∧
    (∀ e ∈ s.trace, eventAllowed s.config e = true) ∧
    (∀ m ∈ pendingSteps s, m.writes.all (writeLegal s.config.codes) = true ∧ eventAllowed s.config m.event = true) ∧
    (s.settle.pos = .ready → Configured s.settle)

/-! ## Which instruction touches what (10_state.md R28) -/

/-- The six requests that read and write `displayControlFlags` (R28). -/
def writesDisplayControl : Instr → Bool
  | .display | .noDisplay | .cursor | .noCursor | .blink | .noBlink => true
  | .init | .clear | .home | .setCursor _ _ | .scrollL | .scrollR | .ltr | .rtl | .autoscroll | .noAutoscroll
  | .createChar _ _ | .wrStr _ | .cmd _ | .wrb _
  | .clearDisplay | .returnHome | .entryModeSet _ _ | .displayControl _ _ _ | .cursorShift _
  | .functionSet _ _ _ | .setCgramAddr _ | .setDdramAddr _ | .handshake3 | .handshake2 => false

/-- The four requests that read and write `entryModeFlags` (R28). -/
def writesEntryMode : Instr → Bool
  | .ltr | .rtl | .autoscroll | .noAutoscroll => true
  | .init | .clear | .home | .setCursor _ _ | .noDisplay | .display | .noCursor | .cursor | .noBlink | .blink
  | .scrollL | .scrollR | .createChar _ _ | .wrStr _ | .cmd _ | .wrb _
  | .clearDisplay | .returnHome | .entryModeSet _ _ | .displayControl _ _ _ | .cursorShift _
  | .functionSet _ _ _ | .setCgramAddr _ | .setDdramAddr _ | .handshake3 | .handshake2 => false

/-- The lines a transfer with these parameters may write (20_memory.md R61): all eight data lines in 8-bit mode, the
four nibble lines in 4-bit mode, `RS`, `E`, and `RW` where it is wired. -/
def drives (b : BusParams) : Line → Bool
  | .d i => b.dl || (List.finRange 4).any (fun j => nibbleLine b.nibbleBase j == Line.d i)
  | .rs => true
  | .rw => b.rwWired
  | .e => true

/-- The bytes a display operation or dispatcher request sends, each with its `RS` level, as its own rule lists them
(41_dispatcher.md R150, R151, 43_display_ops.md R192 to R209). `INIT` has handshake nibbles besides and is not
listed; a bus row is no request. -/
def requestTransfers (i : Instr) (s : State) : List (Level × Byte) :=
  let k := s.config.codes
  match i with
  | .clear => [(false, clearDisplayCode)]
  | .home => [(false, k.returnHome)]
  | .setCursor col row => [(false, k.setDdramAddr ||| cursorAddress s.rowOffsets s.lineCount col row)]
  | .display => [(false, k.displayControl ||| (s.displayControlFlags ||| k.displayOn))]
  | .noDisplay => [(false, k.displayControl ||| (s.displayControlFlags &&& ~~~k.displayOn))]
  | .cursor => [(false, k.displayControl ||| (s.displayControlFlags ||| k.cursorOn))]
  | .noCursor => [(false, k.displayControl ||| (s.displayControlFlags &&& ~~~k.cursorOn))]
  | .blink => [(false, k.displayControl ||| (s.displayControlFlags ||| k.blinkOn))]
  | .noBlink => [(false, k.displayControl ||| (s.displayControlFlags &&& ~~~k.blinkOn))]
  | .scrollL => [(false, k.cursorShift ||| k.displayMove ||| k.moveLeft)]
  | .scrollR => [(false, k.cursorShift ||| k.displayMove ||| k.moveRight)]
  | .ltr => [(false, k.entryModeSet ||| (s.entryModeFlags ||| k.entryLeft))]
  | .rtl => [(false, k.entryModeSet ||| (s.entryModeFlags &&& ~~~k.entryLeft))]
  | .autoscroll => [(false, k.entryModeSet ||| (s.entryModeFlags ||| k.shiftInc))]
  | .noAutoscroll => [(false, k.entryModeSet ||| (s.entryModeFlags &&& ~~~k.shiftInc))]
  | .createChar slot glyph =>
    (false, k.setCgramAddr ||| ((slot &&& 0x07#8) <<< 3)) :: glyph.toList.map (fun g => (true, g))
  | .wrStr text => (text.takeWhile (· != s.config.terminator)).map (fun c => (true, c))
  | .cmd value => [(false, value)]
  | .wrb value => [(true, value)]
  | .init | .clearDisplay | .returnHome | .entryModeSet _ _ | .displayControl _ _ _ | .cursorShift _
  | .functionSet _ _ _ | .setCgramAddr _ | .setDdramAddr _ | .handshake3 | .handshake2 => []

end Sys2Proof.Safety
end

