-- ==== Sys2Proof/Certificates/Slice0/Obligations.lean ====
section
/-! DEFINITION. The statements for the provers. Each docstring names the rule of spec/ it formalises. "In `READY`"
is `s.pos = .ready`; `s.emitAll es` is `s` with the events `es` emitted, in order, and nothing else changed.
Statements name the codes of the configuration (92 D10: "Claims should name the constant, and pin the number only
where a test vector needs it") and state beside it the number the spec gives, that of `hd44780Codes`. -/

open Sys2Proof Sys2Proof.Machine Sys2Proof.Safety

/-! ## Encodings -/

/-- R91, R92, R95: every request the encoding admits is read back from its bytes, whatever follows them and whatever
the terminator. -/
def Obligations.RequestDecodesFromItsBytes : Prop :=
  ∀ (term : Byte) (i : Instr) (rest : List Byte), i.isRequest = true → i.wellFormed term = true →
    decode term (encode term i ++ rest) = .ok i rest

/-- R92, R94: whatever the decoder takes from a byte stream is exactly the bytes of the request it answers, and that
request is a well-formed one. -/
def Obligations.DecodedRequestIsItsBytes : Prop :=
  ∀ (term : Byte) (bs : List Byte) (i : Instr) (rest : List Byte), decode term bs = .ok i rest →
    i.isRequest = true ∧ i.wellFormed term = true ∧ encode term i ++ rest = bs

/-- R109, R108: every bus command is read back from its one byte, and each handshake nibble from its nibble. -/
def Obligations.BusRowDecodesFromItsByte : Prop :=
  (∀ (term : Byte) (i : Instr), i.isBusCommand = true → ∃ b, encode term i = [b] ∧ decodeBus b = some i) ∧
    (∀ (term : Byte) (i : Instr), i.isRequest = false → i.isBusCommand = false →
      ∃ b, encode term i = [b] ∧ b.toNat < 16 ∧ decodeNibble (b.setWidth 4) = some i)

/-- R109, R111: a byte is read as a bus command only if it is that command's own byte, so no two rows overlap and the
bytes R111 lists (0x00, 0x03, the cursor moves) are none. -/
def Obligations.BusDecoderAcceptsNothingElse : Prop :=
  (∀ (term b : Byte) (i : Instr), decodeBus b = some i → i.isBusCommand = true ∧ encode term i = [b]) ∧
    (∀ b : Byte, decodeBus b = none ↔
      (b = 0x00#8 ∨ b = 0x03#8 ∨ (b &&& 0xF8#8 = 0x10#8) ∨ (b &&& 0xF8#8 = 0x18#8 ∧ b &&& 0x03#8 ≠ 0x00#8) ∨
        (b &&& 0xE0#8 = 0x20#8 ∧ b &&& 0x03#8 ≠ 0x00#8) ∨ (b &&& 0xC0#8 = 0x40#8 ∧ b &&& 0x07#8 ≠ 0x00#8)))

/-- Words written out from the tables of R91 and R109 decode to the rows they stand for, `0x00` being the terminator
(R95). -/
def Obligations.WordsOfTheTablesDecode : Prop :=
  decode 0x00#8 [0x03#8, 0x05#8, 0x01#8, 0x07#8] = .ok (.setCursor 5#8 1#8) [0x07#8] ∧
    decode 0x00#8 [0x11#8, 0x48#8, 0x69#8, 0x00#8] = .ok (.wrStr [0x48#8, 0x69#8]) [] ∧
    decode 0x00#8 [0x12#8, 0x01#8] = .ok (.cmd 0x01#8) [] ∧
    decode 0x00#8 [0x0E#8] = .ok .autoscroll [] ∧
    decodeBus 0x0D#8 = some (.displayControl true false true) ∧
    decodeBus 0x38#8 = some (.functionSet true true false) ∧
    decodeBus 0x58#8 = some (.setCgramAddr 3#3) ∧
    decodeNibble 0x3#4 = some .handshake3

/-! ## The step -/

/-- When the block is idle and the bytes offered begin with a request, the step is the meaning of that request, its
bytes taken from the stream. (One step runs a whole request: model choice, log entry 1.) -/
def Obligations.StepRunsTheDecodedRequest : Prop :=
  ∀ (s : State) (i : Instr) (rest : List Byte), (∀ p, s.pos ≠ .running p) →
    decode s.config.terminator s.inbox = .ok i rest → step s = exec i { s with inbox := rest }

/-- R248, R260: a block just created emits no event until a request is accepted. An idle block does nothing while
nothing is offered, or only a proper beginning of a fixed-length request; the latter is the model's choice (DESIGN
CHOICE, log entry 9): the rules speak of nothing accepted. (A WRSTR without its terminator and a reserved opcode are
refused: ReservedOpcodesAreRefused.) -/
def Obligations.IdleBlockDoesNothing : Prop :=
  (∀ s : State, (∀ p, s.pos ≠ .running p) → decode s.config.terminator s.inbox = .error .incomplete →
      step s = .next s) ∧
    (∀ c : Config, step (State.create c) = .next (State.create c))

/-- R96: opcode bytes 0x14 to 0xFF select no request and are refused by name. A format-S request is refused by name as
soon as the bytes offered so far hold no terminator: that is the model's choice (DESIGN CHOICE, log entry 9), for R96
refuses a list that never contains it, and the host might still offer one. -/
def Obligations.ReservedOpcodesAreRefused : Prop :=
  ∀ (s : State) (bs : List Byte), (∀ p, s.pos ≠ .running p) →
    (∀ b : Byte, 0x14 ≤ b.toNat → s.inbox = b :: bs → step s = .refused (.reservedOpcode b)) ∧
    (bs.all (· != s.config.terminator) = true → s.inbox = 0x11#8 :: bs → step s = .refused .unterminatedString)

/-- R42, R41: one step inside a request does the register writes of the next micro-step, emits its event and counts
it; the last one ends in `READY`; the bytes the host has offered wait. -/
def Obligations.RequestInProgressGoesOnByOneEvent : Prop :=
  ∀ (s : State) (p : Progress) (m : Micro) (rest : List Micro), s.pos = .running p → p.todo = m :: rest →
    step s = .next
      { (s.writeAll m.writes).emit m.event with
        pos := if rest = [] then .ready else .running ⟨p.request, p.idx + 1, rest⟩ }

/-- R40, R42, R43: an accepted request, run micro-step by micro-step, ends where its meaning says; at every
micro-step before that the phase is `INITIALISING` or `BUSY`, the events emitted are the first of the request's event
list, and the count `idx` is theirs. -/
def Obligations.MicroStepsReachTheMeaning : Prop :=
  ∀ (i : Instr) (s t : State), i.isRequest = true → (∀ p, s.pos ≠ .running p) → exec i s = .next t →
    Host.Core.run core (programOf i s).length (s.start i (programOf i s)) = .next t ∧
    ∀ k, k < (programOf i s).length →
      ∃ u p, Host.Core.run core k (s.start i (programOf i s)) = .next u ∧ u.pos = .running p ∧ p.idx = k ∧
        u.phase = (if i = .init then .initialising else .busy) ∧
        u.trace = s.trace ++ (eventsOf i s).take k ∧ u.inbox = s.inbox

/-- R41, R32: `INIT` is accepted only in `UNINIT` and with `lines` in 1 to 4, every other request only in `READY`;
`INIT` in `READY`, `INIT` with any other `lines` and any other request in `UNINIT` are refused. That a request run
while another is in progress is run after that one has ended, so that `INIT` there is refused as in `READY`, is the
model's reading of R41 (DEDUCED, log entry 2). -/
def Obligations.AcceptanceFollowsThePhase : Prop :=
  ∀ (i : Instr) (s : State), i.isRequest = true →
    (s.pos = .uninit → i ≠ .init → exec i s = .refused .beforeInit) ∧
    (s.pos = .uninit → i = .init → 1 ≤ s.config.lines.toNat → s.config.lines.toNat ≤ 4 →
      ∃ t, exec i s = .next t ∧ t.phase = .ready) ∧
    (s.pos = .uninit → i = .init → (s.config.lines.toNat = 0 ∨ 4 < s.config.lines.toNat) →
      exec i s = .refused .linesOutOfRange) ∧
    (s.pos = .ready → i = .init → exec i s = .refused .initTwice) ∧
    (s.pos = .ready → i ≠ .init → ∃ t, exec i s = .next t ∧ t.phase = .ready) ∧
    (∀ p, s.pos = .running p → exec i s = exec i s.settle ∧ s.settle.pos = .ready)

/-- R245: the configuration is the host's to set before `INIT` and no one's afterwards. -/
def Obligations.ConfigurationIsFixedByInit : Prop :=
  ∀ (c : Config) (s : State),
    (s.pos = .uninit → s.configure c = .next { s with config := c }) ∧
    (s.pos ≠ .uninit → s.configure c = .refused .configurationFixed)

/-! ## Reset and invariants -/

/-- R50, R260, R261: after reset the phase is `UNINIT`, no request is in progress, no event has been emitted, the
configuration is the one supplied, and the reset state has the default font and `NIBBLE_BASE` 0. (Its other
configuration values are the model's choice, log entry 5.) -/
def Obligations.ResetLeavesTheBlockUninitialised : Prop :=
  (∀ c : Config, (State.create c).phase = .uninit ∧ (State.create c).pos = .uninit ∧
    (State.create c).trace = [] ∧ (State.create c).config = c) ∧
  State.reset = State.create sourceConfig ∧ sourceConfig.font = .default ∧ sourceConfig.nibbleBase = .base0

/-- The invariant holds after reset, whatever the configuration. (Model's choice: the flag registers hold 0x00 at
reset, log entry 3.) -/
def Obligations.ResetMeetsTheInvariant : Prop :=
  (∀ c : Config, Inv (State.create c)) ∧ Inv State.reset

/-- R22 to R27, R34, R35, R138: every step keeps the invariant: unused flag bits 0; in `READY` the registers `INIT`
wrote as it wrote them and `E` and a wired `RW` low; no event on an unwired `RW` nor, in 4-bit mode, on an unused
data line, anywhere in the trace. -/
def Obligations.StepKeepsTheInvariant : Prop :=
  ∀ s t : State, Inv s → step s = .next t → Inv t

/-- R6, R20 (d): no instruction and no step changes the configuration. -/
def Obligations.ConfigurationNeverChanges : Prop :=
  (∀ (i : Instr) (s t : State), exec i s = .next t → t.config = s.config) ∧
    (∀ s t : State, step s = .next t → t.config = s.config)

/-- R14, R35, R73: an instruction adds its event list at the end of the trace, and the latches are what those line
writes make of them; no result depends on the level of any line. -/
def Obligations.LineLevelsAreNeverRead : Prop :=
  ∀ (i : Instr) (s : State) (ls : Lines),
    (∀ t, exec i s = .next t → ∃ es, t.trace = s.trace ++ es ∧ t.lines = linesAfter s.lines es ∧
      exec i { s with lines := ls } = .next { t with lines := linesAfter ls es }) ∧
    (∀ r, exec i s = .refused r → exec i { s with lines := ls } = .refused r)

/-- R21: `INIT` does the same whatever the unwritten registers hold, so no run from reset depends on the values log
entry 3 chooses. (A bus command run by itself before `INIT` does read `functionFlags`:
BusCommandsBeforeInitFollowTheHeldFlags.) -/
def Obligations.InitIgnoresUnwrittenRegisters : Prop :=
  ∀ (s : State) (ff dc em lc : Byte) (ro : Vector Byte 4), s.pos = .uninit →
    exec .init
      { s with
        functionFlags := ff
        displayControlFlags := dc
        entryModeFlags := em
        lineCount := lc
        rowOffsets := ro } = exec .init s

/-- R35, R61: no step writes a line the instance does not use (an unwired `RW`, the other four data lines in 4-bit
mode). That such a line then keeps its level is the model's choice (DESIGN CHOICE, log entries 4 and 18): the spec
calls its level unknown and not assumed stable (R35, R50, 92 D24, 93 U9). -/
def Obligations.UnusedLinesAreNeverWritten : Prop :=
  ∀ (s t : State) (l : Line), Inv s → step s = .next t → eventAllowed s.config (.setLine l true) = false →
    t.level l = s.level l

/-! ## Bus Transfer -/

/-- R131: `PulseStrobe` is exactly six events of at least 102 µs under the source's timing; begun with `E` low it has
one latch point, `E` ends low, and no other line moves. (The latch view: log entry 19.) -/
def Obligations.PulseStrobeIsExact : Prop :=
  ∀ (t : Timing) (b : BusParams) (ls : Lines),
    pulseStrobe t = [.setLine .e false, .delay t.tSetup, .setLine .e true, .delay t.tPulse, .setLine .e false,
      .delay t.tSettle] ∧
    minDuration (pulseStrobe sourceTiming) = 102 ∧
    (levelOf ls .e = false → latchedWords b ls (pulseStrobe t) = [latchedNow b ls]) ∧
    levelOf (linesAfter ls (pulseStrobe t)) .e = false ∧
    (∀ l, l ≠ .e → levelOf (linesAfter ls (pulseStrobe t)) l = levelOf ls l)

/-- R133: `Drive8(v)` writes bit `i` of `v` to line `i`, all eight in ascending order, and strobes: 14 events, and the
latched data is `v`. The ascending order is the spec's own decision (R133, 92 D5), which the model follows (DESIGN
CHOICE, log entry 15). (The latch view: log entry 19.) -/
def Obligations.DriveEightLatchesTheByte : Prop :=
  ∀ (b : BusParams) (v : Byte) (ls : Lines),
    drive8 b v = (List.finRange 8).map (fun i => Event.setLine (.d i) (v.getLsbD i.val)) ++ pulseStrobe b.timing ∧
    (drive8 b v).length = 14 ∧
    (b.dl = true → levelOf ls .e = false → (latchedWords b ls (drive8 b v)).map Latched.data = [.byte v])

/-- R134: `Drive4(n)` writes the low four bits of `n` to the lines `NIBBLE_BASE + i`, in ascending order, and strobes:
10 events, upper bits ignored, no other data line and neither `RS` nor `RW` written, and the latched data is `n[3:0]`.
Which four lines carry which bit, and the ascending order, are the spec's own decisions (R134, 92 D4 and D5), which the
model follows (DESIGN CHOICE, log entry 15). (The latch view: log entry 19.) -/
def Obligations.DriveFourLatchesTheNibble : Prop :=
  ∀ (b : BusParams) (n : Byte) (ls : Lines),
    drive4 b n = (List.finRange 4).map (fun i => Event.setLine (nibbleLine b.nibbleBase i) (n.getLsbD i.val))
      ++ pulseStrobe b.timing ∧
    (drive4 b n).length = 10 ∧ drive4 b (n &&& 0x0F#8) = drive4 b n ∧
    (∀ l, l ≠ .e → (∀ i, nibbleLine b.nibbleBase i ≠ l) →
      levelOf (linesAfter ls (drive4 b n)) l = levelOf ls l) ∧
    (b.dl = false → levelOf ls .e = false →
      (latchedWords b ls (drive4 b n)).map Latched.data = [.nibble (n.setWidth 4)])

/-- R135: `SelectRegister` writes `RS`, then `RW` low where it is wired, and nothing on `RW` where it is not. That `RS`
comes before `RW` is the spec's own decision (R135, 92 D6), which the model follows (DESIGN CHOICE, log entry 15). -/
def Obligations.SelectRegisterWritesRsThenRw : Prop :=
  ∀ (b : BusParams) (mode : RegSel),
    selectRegister b mode = .setLine .rs (decide (mode = .data)) :: (if b.rwWired then [.setLine .rw false] else [])

/-- R136: `TransferByte` selects the register once and then drives eight lines, or the high and then the low nibble;
its event counts, durations under the source's timing, and latch points, all with the selected register; the framing is
the DL flag of `functionFlags`. That for any codes this flag is the bit of `F_8BIT` is the model's reading of R22
(DEDUCED, log entry 23); with the numbers of the spec it is bit 4 (R22). That the register is selected once per byte,
with no write of `RS` or `RW` between the two nibbles, is the spec's reading of 91 N7, which the model follows (DESIGN
CHOICE, log entry 15), and the counts in 4-bit mode rest on it. That all latch points have the selected register is in
4-bit mode R136's own inference, marked [derived: from rules R134 and R135]. (The latch view: log entry 19.) -/
def Obligations.TransferByteFramesTheByte : Prop :=
  ∀ (b : BusParams) (v : Byte) (mode : RegSel) (ls : Lines),
    transferByte b v mode = selectRegister b mode ++
      (if b.dl then drive8 b v else drive4 b (v >>> 4) ++ drive4 b (v &&& 0x0F#8)) ∧
    (transferByte b v mode).length = (if b.dl then 15 else 21) + (if b.rwWired then 1 else 0) ∧
    (b.timing = sourceTiming → minDuration (transferByte b v mode) = if b.dl then 102 else 204) ∧
    (levelOf ls .e = false → (latchedWords b ls (transferByte b v mode)).length = (if b.dl then 1 else 2) ∧
      ∀ w ∈ latchedWords b ls (transferByte b v mode), w.rs = decide (mode = .data)) ∧
    (∀ s : State, s.bus.dl = (s.functionFlags &&& s.config.codes.f8Bit != 0x00#8) ∧
      (s.config.codes = hd44780Codes → s.bus.dl = s.functionFlags.getLsbD 4) ∧ s.bus.rwWired = s.config.rwWired ∧
      s.bus.nibbleBase = s.config.nibbleBase ∧ s.bus.timing = s.config.timing)

/-- R137: in 8-bit mode one latched word is the byte bit for bit; in 4-bit mode exactly two latched nibbles, high then
low, are the byte; all with the selected register. The words on the latched-word view, `(mode, v)` and `(mode, h)`,
`(mode, l)`, are the sentence of R137 marked [derived: from rule R136], and that both nibbles have the same register
selection is R136's, marked [derived: from rules R134 and R135]: the spec's own inferences. (The latch view: log entry
19.) -/
def Obligations.NibblesReconstructTheByte : Prop :=
  ∀ (b : BusParams) (v : Byte) (mode : RegSel) (ls : Lines), levelOf ls .e = false →
    if b.dl then
      ∃ rw, latchedWords b ls (transferByte b v mode) = [⟨decide (mode = .data), rw, .byte v⟩]
    else
      ∃ rw h l, latchedWords b ls (transferByte b v mode) =
        [⟨decide (mode = .data), rw, .nibble h⟩, ⟨decide (mode = .data), rw, .nibble l⟩] ∧ h ++ l = v

/-- R138: after a transfer `RS` holds the mode, a wired `RW` holds 0, `E` is low, and the driven data lines hold the
byte, or its low nibble; no data, `RS` or `RW` line is written while `E` is high. (Which line carries which bit of a
nibble: 92 D4, log entry 15.) -/
def Obligations.LinesHoldAroundATransfer : Prop :=
  ∀ (b : BusParams) (v : Byte) (mode : RegSel) (ls : Lines),
    levelOf (linesAfter ls (transferByte b v mode)) .rs = decide (mode = .data) ∧
    (b.rwWired = true → levelOf (linesAfter ls (transferByte b v mode)) .rw = false) ∧
    levelOf (linesAfter ls (transferByte b v mode)) .e = false ∧
    (b.dl = true → dataByte (linesAfter ls (transferByte b v mode)) = v) ∧
    (b.dl = false → dataNibble b.nibbleBase (linesAfter ls (transferByte b v mode)) = v.setWidth 4) ∧
    quietWhileHigh false (transferByte b v mode) = true

/-! ## Dispatcher -/

/-- R150, R151: `CMD value`, in `READY`, sends the byte with `RS` low and `WRB value` with `RS` high, whatever it is,
with no guard of their own, and neither writes a register; in `UNINIT` both are refused. -/
def Obligations.DispatcherSendsTheByte : Prop :=
  ∀ (value : Byte) (s : State), s.pos = .ready →
    encode s.config.terminator (.cmd value) = [0x12#8, value] ∧
    encode s.config.terminator (.wrb value) = [0x13#8, value] ∧
    exec (.cmd value) s = .next (s.emitAll (transferByte s.bus value .command)) ∧
    exec (.wrb value) s = .next (s.emitAll (transferByte s.bus value .data)) ∧
    (∀ u : State, u.pos = .uninit →
      exec (.cmd value) u = .refused .beforeInit ∧ exec (.wrb value) u = .refused .beforeInit)

/-! ## Initialization -/

/-- R160 to R172: what `INIT` does, in `UNINIT` with `lines` in 1 to 4: every register it writes and every event it
emits; the power-on guard is 50000 µs under the source's timing and at least 40000 µs under any. (The numbers of the
codes: log entry 6.) The bound `40000 ≤ T_POWERON` under any timing, a bound in the type, is the model's choice (DESIGN
CHOICE, log entry 22), and the order `RS`, `E`, `RW` of step 6 is the spec's decision 92 D7, which the model follows
(DESIGN CHOICE, log entry 15). The 8-bit wrap of the row offsets is the spec's own reading (R163, 92 D13). -/
def Obligations.InitDoesItsElevenSteps : Prop :=
  (hd44780Codes.f8Bit = 0x10#8 ∧ hd44780Codes.f4Bit = 0x00#8 ∧ hd44780Codes.f2Line = 0x08#8 ∧
    hd44780Codes.f1Line = 0x00#8 ∧ hd44780Codes.f5x10 = 0x04#8 ∧ hd44780Codes.f5x8 = 0x00#8 ∧
    hd44780Codes.functionSet = 0x20#8 ∧ hd44780Codes.displayOn = 0x04#8 ∧ hd44780Codes.entryLeft = 0x02#8 ∧
    hd44780Codes.displayControl ||| hd44780Codes.displayOn = 0x0C#8 ∧
    hd44780Codes.entryModeSet ||| hd44780Codes.entryLeft = 0x06#8 ∧ sourceTiming.tPowerOn.val = 50000) ∧
  ∀ s : State, s.pos = .uninit → 1 ≤ s.config.lines.toNat → s.config.lines.toNat ≤ 4 →
    ∀ (ff fset : Byte) (b : BusParams) (es : List Event),
    ff = ((if s.config.bitMode = .bit8 then s.config.codes.f8Bit else s.config.codes.f4Bit)
      ||| s.config.codes.f1Line ||| s.config.codes.f5x8
      ||| (if 1 < s.config.lines.toNat then s.config.codes.f2Line else 0x00#8)
      ||| (if s.config.font = .large ∧ s.config.lines.toNat = 1 then s.config.codes.f5x10 else 0x00#8)) →
    fset = s.config.codes.functionSet ||| ff →
    b = ⟨decide (s.config.bitMode = .bit8), s.config.rwWired, s.config.nibbleBase, s.config.timing⟩ →
    es = [.delay s.config.timing.tPowerOn.val]
      ++ [.setLine .rs false, .setLine .e false] ++ (if s.config.rwWired then [.setLine .rw false] else [])
      ++ (match s.config.bitMode with
          | .bit4 =>
            drive4 b 0x03#8 ++ [.delay s.config.timing.tH4_1] ++ drive4 b 0x03#8
              ++ [.delay s.config.timing.tH4_2] ++ drive4 b 0x03#8 ++ [.delay s.config.timing.tH4_3]
              ++ drive4 b 0x02#8
          | .bit8 =>
            transferByte b fset .command ++ [.delay s.config.timing.tH8_1]
              ++ transferByte b fset .command ++ [.delay s.config.timing.tH8_2]
              ++ transferByte b fset .command)
      ++ transferByte b fset .command
      ++ transferByte b (s.config.codes.displayControl ||| s.config.codes.displayOn) .command
      ++ transferByte b 0x01#8 .command ++ [.delay s.config.timing.tClear]
      ++ transferByte b (s.config.codes.entryModeSet ||| s.config.codes.entryLeft) .command →
    encode s.config.terminator .init = [0x00#8] ∧ 40000 ≤ s.config.timing.tPowerOn.val ∧
    exec .init s = .next
      { s with
        functionFlags := ff
        displayControlFlags := s.config.codes.displayOn
        entryModeFlags := s.config.codes.entryLeft
        lineCount := s.config.lines
        rowOffsets := #v[0x00#8, 0x40#8, 0x00#8 + s.config.columns, 0x40#8 + s.config.columns]
        lines := linesAfter s.lines es
        trace := s.trace ++ es
        pos := .ready }

/-- R173, R264: where `INIT` leaves the block: phase `READY`, every register written, `RS`, `E` and a wired `RW` low,
the driven data lines holding ENTRYMODESET OR-ed with its flags, 0x06 (or its low nibble). That every line it does not
drive is as it was is the model's choice (DESIGN CHOICE, log entries 4 and 18): R173 calls those lines still unknown.
(The numbers of the codes: log entry 6.) (Which line carries which bit of a nibble: 92 D4, log entry 15.) -/
def Obligations.InitLeavesTheTerminalState : Prop :=
  (hd44780Codes.displayOn = 0x04#8 ∧ hd44780Codes.entryLeft = 0x02#8 ∧
    hd44780Codes.entryModeSet ||| hd44780Codes.entryLeft = 0x06#8) ∧
  ∀ s t : State, s.pos = .uninit → exec .init s = .next t →
    t.phase = .ready ∧ t.functionFlags = initFunctionFlags s.config ∧
    t.displayControlFlags = s.config.codes.displayOn ∧
    t.entryModeFlags = s.config.codes.entryLeft ∧ t.lineCount = s.config.lines ∧
    t.rowOffsets = #v[0x00#8, 0x40#8, 0x00#8 + s.config.columns, 0x40#8 + s.config.columns] ∧
    t.level .rs = false ∧ t.level .e = false ∧
    (s.config.rwWired = true → t.level .rw = false) ∧
    (s.config.bitMode = .bit8 → dataByte t.lines = s.config.codes.entryModeSet ||| s.config.codes.entryLeft) ∧
    (s.config.bitMode = .bit4 → dataNibble s.config.nibbleBase t.lines =
      (s.config.codes.entryModeSet ||| s.config.codes.entryLeft).setWidth 4) ∧
    (∀ l, drives (initBus s.config) l = false → t.level l = s.level l)

/-- R174: how many events `INIT` emits and how long they last at least, under the source's timing. (The register is
selected once per byte, 91 N7: DESIGN CHOICE, log entry 15.) -/
def Obligations.InitHasItsStatedSize : Prop :=
  ∀ s t : State, s.pos = .uninit → s.config.timing = sourceTiming → exec .init s = .next t →
    t.trace.length = s.trace.length + (match s.config.bitMode, s.config.rwWired with
      | .bit4, true => 136
      | .bit4, false => 131
      | .bit8, true => 119
      | .bit8, false => 111) ∧
    minDuration t.trace = minDuration s.trace + (match s.config.bitMode with
      | .bit4 => 62374
      | .bit8 => 57364)

/-- R166, R174: the words `INIT` latches: one more in front where `E` was high before step 6, then the handshake and
the four or seven command bytes, all with `RS` low. (The numbers of the codes: log entry 6; the latch view: log entry
19.) That the word in front holds the levels the lines had at the start is the model's choice (DESIGN CHOICE, log entry
4: a line nothing has written holds its level, where R166 says unknown data and R50 not necessarily stable); that its
`RS` is already low follows the order of step 6, which is 92 D7's (DESIGN CHOICE, log entry 15). -/
def Obligations.InitLatchesItsWords : Prop :=
  (hd44780Codes.functionSet = 0x20#8 ∧ hd44780Codes.displayControl ||| hd44780Codes.displayOn = 0x0C#8 ∧
    hd44780Codes.entryModeSet ||| hd44780Codes.entryLeft = 0x06#8) ∧
  ∀ s t : State, s.pos = .uninit → exec .init s = .next t →
    ∀ (rw : Option Level) (nib : Nibble → Latched) (byt : Byte → Latched) (fset : Byte) (commands : List Byte),
    rw = (if s.config.rwWired then some false else none) →
    nib = (fun n => ⟨false, rw, .nibble n⟩) → byt = (fun v => ⟨false, rw, .byte v⟩) →
    fset = s.config.codes.functionSet ||| t.functionFlags →
    commands = [fset, s.config.codes.displayControl ||| s.config.codes.displayOn, 0x01#8,
      s.config.codes.entryModeSet ||| s.config.codes.entryLeft] →
    latchedWords t.bus s.lines (eventsOf .init s) =
      (if s.level .e then [latchedNow t.bus ((Event.setLine .rs false).applyTo s.lines)] else []) ++
      (match s.config.bitMode with
        | .bit4 =>
          [nib 0x3#4, nib 0x3#4, nib 0x3#4, nib 0x2#4]
            ++ commands.flatMap (fun v => [nib (v.extractLsb' 4 4), nib (v.extractLsb' 0 4)])
        | .bit8 => [byt fset, byt fset, byt fset] ++ commands.map byt)

/-- R175: the state table walked from `I_IDLE` does what the eleven steps do, micro-step for micro-step, and walked on
it stops at `I_DONE`. -/
def Obligations.InitStateTableIsTheElevenSteps : Prop :=
  ∀ c : Config, weave [] (initWalk c 16 .idle) = initProgram c ∧
    ∀ k, weave [] (initWalk c (16 + k) .idle) = initProgram c

/-- R176: no instruction but `INIT` writes `functionFlags`, `lineCount` or `rowOffsets` (no request being in
progress). -/
def Obligations.OnlyInitWritesItsRegisters : Prop :=
  ∀ (i : Instr) (s t : State), i ≠ .init → (∀ p, s.pos ≠ .running p) → exec i s = .next t →
    t.functionFlags = s.functionFlags ∧ t.lineCount = s.lineCount ∧ t.rowOffsets = s.rowOffsets

/-! ## Display operations -/

/-- R192, R193: `CLEAR` sends 0x01 and then waits `T_CLEAR`, `HOME` sends RETURNHOME, 0x02, and then waits `T_HOME`,
2000 µs each. (Number of RETURNHOME: log entry 6.) That at least `T_SETTLE` and that guard, 2100 µs in all, lie between
the latch point and what comes next is the sentence of R192 marked [derived: from `40_bus_transfer.md` rule R131], the
spec's own inference, said of `HOME` likewise. (The latch view: log entry 19.) -/
def Obligations.ClearAndHomeSendAndWait : Prop :=
  sourceTiming.tClear = 2000 ∧ sourceTiming.tHome = 2000 ∧ hd44780Codes.returnHome = 0x02#8 ∧
  ∀ s : State, s.pos = .ready → ∀ es fs : List Event,
    es = transferByte s.bus 0x01#8 .command ++ [.delay s.config.timing.tClear] →
    fs = transferByte s.bus s.config.codes.returnHome .command ++ [.delay s.config.timing.tHome] →
    encode s.config.terminator .clear = [0x01#8] ∧ exec .clear s = .next (s.emitAll es) ∧
    (∀ g, gapAfter false g es = s.config.timing.tSettle + s.config.timing.tClear) ∧
    encode s.config.terminator .home = [0x02#8] ∧ exec .home s = .next (s.emitAll fs) ∧
    (∀ g, gapAfter false g fs = s.config.timing.tSettle + s.config.timing.tHome)

/-- R194: `SETCURSOR` sends `SETDDRAMADDR | ((col + rowOffsets[r2]) mod 256)`, the row clamped by the table length
first and by the line count then; no register is written. (Number of the code: log entry 6.) The 8-bit wrap of the sum
and the loss of its bit 7 under the OR are what R194 marks as the spec's own reading (92 D13), and that a row equal to
a bound is clamped too is its reading of 90 C2. -/
def Obligations.SetCursorSendsTheAddress : Prop :=
  hd44780Codes.setDdramAddr = 0x80#8 ∧
  ∀ (col row : Byte) (s : State), s.pos = .ready → 1 ≤ s.lineCount.toNat → s.lineCount.toNat ≤ 4 →
    ∀ (r1 r2 : Nat) (h : r2 < 4), r1 = min row.toNat 3 → r2 = min r1 (s.lineCount.toNat - 1) →
    encode s.config.terminator (.setCursor col row) = [0x03#8, col, row] ∧
    exec (.setCursor col row) s =
      .next (s.emitAll (transferByte s.bus (s.config.codes.setDdramAddr ||| (col + s.rowOffsets[r2])) .command))

/-- R195: for every row, the clamped row is `min(min(row, 3), lineCount - 1)` and is inside the table. That it equals
`min(row, min(lineCount, 4) - 1)` is R195's "Equivalent form", the equality marked [derived: ...] there: the spec's own
inference. -/
def Obligations.RowClampNeverLeavesTheTable : Prop :=
  ∀ row lineCount : Byte, 1 ≤ lineCount.toNat →
    (clampRow row lineCount).val = min (min row.toNat (4 - 1)) (lineCount.toNat - 1) ∧
    (clampRow row lineCount).val = min row.toNat (min lineCount.toNat 4 - 1) ∧
    (clampRow row lineCount).val < 4 ∧ (clampRow row lineCount).val < lineCount.toNat

/-- R196, R198, R200: `DISPLAY`, `CURSOR`, `BLINK` set their bit of `displayControlFlags`, leave the other two, and
send DISPLAYCONTROL OR-ed with the new flags. (Numbers of the codes: log entry 6.) Done twice, flags and command are
those of once: R196 states it of `DISPLAY`; of `CURSOR` and `BLINK` it is the inference of R210, marked [derived: from
rules R196 to R201 and R204 to R207]. -/
def Obligations.DisplayCursorBlinkSetTheirBit : Prop :=
  (hd44780Codes.displayControl = 0x08#8 ∧ hd44780Codes.displayOn = 0x04#8 ∧ hd44780Codes.cursorOn = 0x02#8 ∧
    hd44780Codes.blinkOn = 0x01#8) ∧
  ∀ (s : State) (i : Instr) (op bit : Byte), s.pos = .ready →
    (i, op, bit) ∈
      [(Instr.display, 0x05#8, s.config.codes.displayOn), (Instr.cursor, 0x07#8, s.config.codes.cursorOn),
        (Instr.blink, 0x09#8, s.config.codes.blinkOn)] →
    encode s.config.terminator i = [op] ∧
    exec i s = .next (({ s with displayControlFlags := s.displayControlFlags ||| bit } : State).emitAll
      (transferByte s.bus (s.config.codes.displayControl ||| (s.displayControlFlags ||| bit)) .command)) ∧
    (∀ t u, exec i s = .next t → exec i t = .next u →
      u.displayControlFlags = t.displayControlFlags ∧ eventsOf i t = eventsOf i s)

/-- R197, R199, R201: `NODISPLAY`, `NOCURSOR`, `NOBLINK` clear their bit of `displayControlFlags`, leave the other two,
and send DISPLAYCONTROL OR-ed with the new flags. (Numbers of the codes: log entry 6.) -/
def Obligations.NoDisplayCursorBlinkClearTheirBit : Prop :=
  (hd44780Codes.displayControl = 0x08#8 ∧ hd44780Codes.displayOn = 0x04#8 ∧ hd44780Codes.cursorOn = 0x02#8 ∧
    hd44780Codes.blinkOn = 0x01#8) ∧
  ∀ (s : State) (i : Instr) (op bit : Byte), s.pos = .ready →
    (i, op, bit) ∈
      [(Instr.noDisplay, 0x04#8, s.config.codes.displayOn), (Instr.noCursor, 0x06#8, s.config.codes.cursorOn),
        (Instr.noBlink, 0x08#8, s.config.codes.blinkOn)] →
    encode s.config.terminator i = [op] ∧
    exec i s = .next (({ s with displayControlFlags := s.displayControlFlags &&& ~~~bit } : State).emitAll
      (transferByte s.bus (s.config.codes.displayControl ||| (s.displayControlFlags &&& ~~~bit)) .command))

/-- R202, R203: `SCROLLL` sends `CURSORSHIFT | DISPLAYMOVE | MOVELEFT`, 0x18, and `SCROLLR`
`CURSORSHIFT | DISPLAYMOVE | MOVERIGHT`, 0x1C; no register is written. (Numbers of the codes: log entry 6.) -/
def Obligations.ScrollSendsItsByte : Prop :=
  (hd44780Codes.cursorShift ||| hd44780Codes.displayMove ||| hd44780Codes.moveLeft = 0x18#8 ∧
    hd44780Codes.cursorShift ||| hd44780Codes.displayMove ||| hd44780Codes.moveRight = 0x1C#8) ∧
  ∀ s : State, s.pos = .ready →
    encode s.config.terminator .scrollL = [0x0A#8] ∧ encode s.config.terminator .scrollR = [0x0B#8] ∧
    (∀ move : Byte, move = s.config.codes.cursorShift ||| s.config.codes.displayMove →
      exec .scrollL s = .next (s.emitAll (transferByte s.bus (move ||| s.config.codes.moveLeft) .command)) ∧
      exec .scrollR s = .next (s.emitAll (transferByte s.bus (move ||| s.config.codes.moveRight) .command)))

/-- R204, R206: `LTR` and `AUTOSCROLL` set their bit of `entryModeFlags`, leave the other, and send ENTRYMODESET OR-ed
with the new flags. (Numbers of the codes: log entry 6.) -/
def Obligations.LtrAutoscrollSetTheirBit : Prop :=
  (hd44780Codes.entryModeSet = 0x04#8 ∧ hd44780Codes.entryLeft = 0x02#8 ∧ hd44780Codes.shiftInc = 0x01#8) ∧
  ∀ (s : State) (i : Instr) (op bit : Byte), s.pos = .ready →
    (i, op, bit) ∈
      [(Instr.ltr, 0x0C#8, s.config.codes.entryLeft), (Instr.autoscroll, 0x0E#8, s.config.codes.shiftInc)] →
    encode s.config.terminator i = [op] ∧
    exec i s = .next (({ s with entryModeFlags := s.entryModeFlags ||| bit } : State).emitAll
      (transferByte s.bus (s.config.codes.entryModeSet ||| (s.entryModeFlags ||| bit)) .command))

/-- R205, R207: `RTL` and `NOAUTOSCROLL` clear their bit of `entryModeFlags`, leave the other, and send ENTRYMODESET
OR-ed with the new flags. (Numbers of the codes: log entry 6.) -/
def Obligations.RtlNoAutoscrollClearTheirBit : Prop :=
  (hd44780Codes.entryModeSet = 0x04#8 ∧ hd44780Codes.entryLeft = 0x02#8 ∧ hd44780Codes.shiftInc = 0x01#8) ∧
  ∀ (s : State) (i : Instr) (op bit : Byte), s.pos = .ready →
    (i, op, bit) ∈
      [(Instr.rtl, 0x0D#8, s.config.codes.entryLeft), (Instr.noAutoscroll, 0x0F#8, s.config.codes.shiftInc)] →
    encode s.config.terminator i = [op] ∧
    exec i s = .next (({ s with entryModeFlags := s.entryModeFlags &&& ~~~bit } : State).emitAll
      (transferByte s.bus (s.config.codes.entryModeSet ||| (s.entryModeFlags &&& ~~~bit)) .command))

/-- R208: `CREATECHAR` sends `SETCGRAMADDR | ((slot & 7) << 3)` and then the eight glyph bytes, whole and in order;
slots that agree in their low three bits are one slot; no register is written. (Number of the code: log entry 6.) -/
def Obligations.CreateCharUploadsTheGlyph : Prop :=
  hd44780Codes.setCgramAddr = 0x40#8 ∧
  ∀ (slot : Byte) (glyph : Vector Byte 8) (s : State), s.pos = .ready →
    encode s.config.terminator (.createChar slot glyph) = 0x10#8 :: slot :: glyph.toList ∧
    exec (.createChar slot glyph) s = .next (s.emitAll
      (transferByte s.bus (s.config.codes.setCgramAddr ||| ((slot &&& 0x07#8) <<< 3)) .command
        ++ glyph.toList.flatMap (fun g => transferByte s.bus g .data))) ∧
    (∀ slot' : Byte, slot &&& 0x07#8 = slot' &&& 0x07#8 →
      exec (.createChar slot' glyph) s = exec (.createChar slot glyph) s)

/-- R209: `WRSTR` sends one data byte per character, in order, and no terminator; the empty string emits nothing; no
register is written. (The terminator's number: log entry 6.) -/
def Obligations.WrStrSendsItsCharacters : Prop :=
  nulTerminator = 0x00#8 ∧
  ∀ (text : List Byte) (s : State), s.pos = .ready → (Instr.wrStr text).wellFormed s.config.terminator = true →
    encode s.config.terminator (.wrStr text) = 0x11#8 :: (text ++ [s.config.terminator]) ∧
    exec (.wrStr text) s = .next (s.emitAll (text.flatMap (fun c => transferByte s.bus c .data))) ∧
    exec (.wrStr []) s = .next s

/-- R192 to R209 in the latched-word view (R15): what a controller on the lines receives from each request but `INIT`
is exactly the bytes its rule lists, in either framing. (Numbers of the codes: log entry 6; the latch view: log entry
19.) -/
def Obligations.EveryRequestSendsItsBytes : Prop :=
  ∀ (i : Instr) (s : State), i.isRequest = true → i ≠ .init → s.level .e = false →
    sentBytes s.bus s.lines (eventsOf i s) = requestTransfers i s

/-- R210: set and clear laws of the five pairs of the source's table: each request of a pair is idempotent on the
flags, "+" then "−" leaves the bit clear, "−" then "+" leaves it set, and no pair changes the bit of another. So (90
C7) "+" then "−" restores the bit exactly when it was clear before. (An inference the spec marks as its own: R210.) -/
def Obligations.SetAndClearLaws : Prop :=
  ∀ (k : Codes) (plus minus : Instr) (entry : Bool) (bit : Byte),
    (plus, minus, entry, bit) ∈
      [(Instr.display, Instr.noDisplay, false, k.displayOn), (Instr.cursor, Instr.noCursor, false, k.cursorOn),
        (Instr.blink, Instr.noBlink, false, k.blinkOn), (Instr.ltr, Instr.rtl, true, k.entryLeft),
        (Instr.autoscroll, Instr.noAutoscroll, true, k.shiftInc)] →
    ∀ (flags other : State → Byte),
    flags = (fun u => if entry then u.entryModeFlags else u.displayControlFlags) →
    other = (fun u => if entry then u.displayControlFlags else u.entryModeFlags) →
    (∀ s t u : State, s.config.codes = k → s.pos = .ready →
    (exec plus s = .next t → exec plus t = .next u → flags u = flags t) ∧
    (exec minus s = .next t → exec minus t = .next u → flags u = flags t) ∧
    (exec plus s = .next t → exec minus t = .next u → flags u &&& bit = 0x00#8) ∧
    (exec minus s = .next t → exec plus t = .next u → flags u &&& bit = bit) ∧
    (exec plus s = .next t → flags t &&& ~~~bit = flags s &&& ~~~bit ∧ other t = other s) ∧
    (exec minus s = .next t → flags t &&& ~~~bit = flags s &&& ~~~bit ∧ other t = other s)) ∧
    ∀ s t u : State, s.config.codes = k → s.pos = .ready → exec plus s = .next t → exec minus t = .next u →
      (flags u &&& bit = flags s &&& bit ↔ flags s &&& bit = 0x00#8)

/-- R211, R27 (3): after every request but `CMD`, if the last DISPLAYCONTROL byte sent before it agreed with
`displayControlFlags`, the last one sent after it does, and the same for ENTRYMODESET; after `INIT` they agree. (An
inference the spec marks as its own: R211. With the numbers of the spec, by which a byte is told for a DISPLAYCONTROL
or an ENTRYMODESET: log entry 6.) (The latch view: log entry 19.) -/
def Obligations.FlagsAndBusAgree : Prop :=
  ∀ (i : Instr) (s t : State), i.isRequest = true → (∀ value, i ≠ .cmd value) → (∀ p, s.pos ≠ .running p) →
    s.config.codes = hd44780Codes → s.level .e = false → ReservedClear s → exec i s = .next t →
    ∀ bytes : List (Level × Byte), bytes = sentBytes t.bus s.lines (eventsOf i s) →
    (i ≠ .init →
      lastCommand isDisplayControl (0x08#8 ||| s.displayControlFlags) bytes = 0x08#8 ||| t.displayControlFlags ∧
      lastCommand isEntryModeSet (0x04#8 ||| s.entryModeFlags) bytes = 0x04#8 ||| t.entryModeFlags) ∧
    (i = .init → ∀ before,
      lastCommand isDisplayControl before bytes = 0x08#8 ||| t.displayControlFlags ∧
      lastCommand isEntryModeSet before bytes = 0x04#8 ||| t.entryModeFlags)

/-- R109, R111: every command byte (`RS` low) that a request other than `CMD` and `INIT` puts on the bus is one of the
eight bus commands of the table. (An inference the spec marks as its own: R111. With the numbers of the spec: log entry
6.) (The latch view: log entry 19.) -/
def Obligations.CommandBytesAreBusCommands : Prop :=
  ∀ (i : Instr) (s : State), i.isRequest = true → i ≠ .init → (∀ value, i ≠ .cmd value) →
    s.config.codes = hd44780Codes → s.level .e = false → ReservedClear s →
    ∀ v, (false, v) ∈ sentBytes s.bus s.lines (eventsOf i s) →
      ∃ j, j.isBusCommand = true ∧ encode s.config.terminator j = [v]

/-- R212: event counts and minimum durations of the requests other than `INIT`, under the source's timing. (An
inference the spec marks as its own: R212.) (The register is selected once per byte, 91 N7: DESIGN CHOICE, log entry
15.) -/
def Obligations.RequestsHaveTheirStatedSize : Prop :=
  ∀ (i : Instr) (s : State), i.isRequest = true → i ≠ .init → s.config.timing = sourceTiming →
    ∀ B T : Nat, B = (if s.bus.dl then 15 else 21) + (if s.config.rwWired then 1 else 0) →
    T = (if s.bus.dl then 102 else 204) →
    (eventsOf i s).length =
      (match i with
        | .clear => B + 1
        | .home => B + 1
        | .createChar _ _ => 9 * B
        | .wrStr text => (text.takeWhile (· != s.config.terminator)).length * B
        | _ => B) ∧
    minDuration (eventsOf i s) =
      (match i with
        | .clear => T + 2000
        | .home => T + 2000
        | .createChar _ _ => 9 * T
        | .wrStr text => (text.takeWhile (· != s.config.terminator)).length * T
        | _ => T)

/-! ## Bus rows -/

/-- R100 to R107, R109, R152: a bus command sent by the block, in any phase, is one transfer of its byte with `RS` low,
with no phase change and no register written. (Numbers of the codes: log entry 6; as a row run by itself: the model's
reading of R152, DEDUCED, log entry 11; before `INIT`: BusCommandsBeforeInitFollowTheHeldFlags; the cleared fields of
FUNCTIONSET: the model's choice, log entry 24; the framing for any codes: log entry 23, as in
TransferByteFramesTheByte.) -/
def Obligations.BusCommandsSendTheirByte : Prop :=
  ∀ s : State, ∀ send : Byte → Host.Outcome State Fault Refusal,
    send = (fun v => .next (s.emitAll (transferByte s.bus v .command))) →
    (∀ i : Instr, i.isBusCommand = true → ∃ v, busByte s.config.codes i = some v ∧ exec i s = send v) ∧
    (s.config.codes = hd44780Codes →
    exec .clearDisplay s = send 0x01#8 ∧
    exec .returnHome s = send 0x02#8 ∧
    (∀ i r : Bool, exec (.entryModeSet i r) s = send (0x04#8 ||| (BitVec.ofBool i ++ BitVec.ofBool r).setWidth 8)) ∧
    (∀ d c b : Bool, exec (.displayControl d c b) s =
      send (0x08#8 ||| (BitVec.ofBool d ++ BitVec.ofBool c ++ BitVec.ofBool b).setWidth 8)) ∧
    (∀ r : Bool, exec (.cursorShift r) s = send (if r then 0x1C#8 else 0x18#8)) ∧
    (∀ l n f : Bool, exec (.functionSet l n f) s =
      send (0x20#8 ||| ((BitVec.ofBool l ++ BitVec.ofBool n ++ BitVec.ofBool f).setWidth 8 <<< 2))) ∧
    (∀ slot : BitVec 3, exec (.setCgramAddr slot) s = send (0x40#8 ||| (slot.setWidth 8 <<< 3))) ∧
    (∀ a : BitVec 7, exec (.setDdramAddr a) s = send (0x80#8 ||| a.setWidth 8)))

/-- R108, R134, R167: a handshake nibble is one raw nibble transfer: four data lines and the strobe, nothing on `RS` or
`RW`, in any phase. (As a row run by itself: log entry 11.) -/
def Obligations.HandshakeNibblesAreRaw : Prop :=
  ∀ s : State,
    exec .handshake3 s = .next (s.emitAll (drive4 s.bus 0x03#8)) ∧
    exec .handshake2 s = .next (s.emitAll (drive4 s.bus 0x02#8)) ∧
    (∀ v l, Event.setLine l v ∈ drive4 s.bus 0x03#8 ++ drive4 s.bus 0x02#8 → l ≠ .rs ∧ l ≠ .rw)

/-- R22, R136, R152: a bus command run by itself before `INIT` is a transfer too, framed by the `functionFlags` the
register holds; right after reset that is 4-bit framing, two nibbles, whatever width the host configured. That it runs
there is the model's reading (DEDUCED, log entry 11), and the value held there is the model's choice (DESIGN CHOICE,
log entries 3 and 11): R21 gives such a read no meaning. For any codes, that the bit of `F_8BIT` tells the framing is
the model's reading of R22 (DEDUCED, log entry 23), and the byte of FUNCTIONSET with a clear field is the model's
choice (DESIGN CHOICE, log entry 24). One register selection per byte: 91 N7, DESIGN CHOICE, log entry 15. -/
def Obligations.BusCommandsBeforeInitFollowTheHeldFlags : Prop :=
  ∀ i : Instr, i.isBusCommand = true →
    (∀ s : State, s.pos = .uninit → ∃ v, busByte s.config.codes i = some v ∧
      exec i s = .next (s.emitAll (selectRegister s.bus .command ++
        (if s.functionFlags &&& s.config.codes.f8Bit = 0x00#8 then
          drive4 s.bus (v >>> 4) ++ drive4 s.bus (v &&& 0x0F#8)
        else drive8 s.bus v)))) ∧
    (∀ c : Config, ∃ v, busByte c.codes i = some v ∧
      exec i (State.create c) = .next ((State.create c).emitAll (selectRegister (State.create c).bus .command ++
        drive4 (State.create c).bus (v >>> 4) ++ drive4 (State.create c).bus (v &&& 0x0F#8))))

/-! ## Frames -/

/-- R28, R192 to R209: what the requests that write no register leave unchanged: every register, the configuration, the
phase, the bytes offered, and every line the bus does not drive. That such a line keeps its level is the model's choice
(DESIGN CHOICE, log entries 4 and 18). -/
def Obligations.FrameOfRegisterFreeRequests : Prop :=
  ∀ (i : Instr) (s t : State), i.isRequest = true → i ≠ .init → writesDisplayControl i = false →
    writesEntryMode i = false → (∀ p, s.pos ≠ .running p) → exec i s = .next t →
    t.functionFlags = s.functionFlags ∧ t.displayControlFlags = s.displayControlFlags ∧
    t.entryModeFlags = s.entryModeFlags ∧ t.lineCount = s.lineCount ∧ t.rowOffsets = s.rowOffsets ∧
    t.config = s.config ∧ t.pos = s.pos ∧ t.inbox = s.inbox ∧
    (∀ l, drives s.bus l = false → t.level l = s.level l)

/-- R28, R196 to R201: the six display-control requests change `displayControlFlags` and nothing else but the trace and
the driven lines. That a line the bus does not drive keeps its level is the model's choice (DESIGN CHOICE, log entries
4 and 18). -/
def Obligations.FrameOfDisplayControlRequests : Prop :=
  ∀ (i : Instr) (s t : State), writesDisplayControl i = true → (∀ p, s.pos ≠ .running p) → exec i s = .next t →
    t.functionFlags = s.functionFlags ∧ t.entryModeFlags = s.entryModeFlags ∧ t.lineCount = s.lineCount ∧
    t.rowOffsets = s.rowOffsets ∧ t.config = s.config ∧ t.pos = s.pos ∧ t.inbox = s.inbox ∧
    t.displayControlFlags &&& ~~~displayMask s.config.codes =
      s.displayControlFlags &&& ~~~displayMask s.config.codes ∧
    (∀ l, drives s.bus l = false → t.level l = s.level l)

/-- R28, R204 to R207: the four entry-mode requests change `entryModeFlags` and nothing else but the trace and the
driven lines. That a line the bus does not drive keeps its level is the model's choice (DESIGN CHOICE, log entries 4
and 18). -/
def Obligations.FrameOfEntryModeRequests : Prop :=
  ∀ (i : Instr) (s t : State), writesEntryMode i = true → (∀ p, s.pos ≠ .running p) → exec i s = .next t →
    t.functionFlags = s.functionFlags ∧ t.displayControlFlags = s.displayControlFlags ∧ t.lineCount = s.lineCount ∧
    t.rowOffsets = s.rowOffsets ∧ t.config = s.config ∧ t.pos = s.pos ∧ t.inbox = s.inbox ∧
    t.entryModeFlags &&& ~~~entryMask s.config.codes = s.entryModeFlags &&& ~~~entryMask s.config.codes ∧
    (∀ l, drives s.bus l = false → t.level l = s.level l)

/-- R28, R160: `INIT` leaves the configuration and the bytes offered; the trace before it stays in front; and every
line it does not drive keeps its level (the model's choice: DESIGN CHOICE, log entries 4 and 18). -/
def Obligations.FrameOfInit : Prop :=
  ∀ s t : State, exec .init s = .next t →
    t.config = s.config ∧ t.inbox = s.inbox ∧ s.trace <+: t.trace ∧
    (∀ l, drives (initBus s.config) l = false → t.level l = s.level l)

/-- R152, R134: a bus row run by itself leaves every register, the position, the configuration, the bytes offered, and
every line the bus does not drive, in every state: the model's reading of R152 (DEDUCED, log entry 11). Which data
lines the bus drives before `INIT` follows the `functionFlags` held then (DESIGN CHOICE, log entry 3), and that a line
it does not drive keeps its level is the model's choice (DESIGN CHOICE, log entries 4 and 18). -/
def Obligations.FrameOfBusRows : Prop :=
  ∀ (i : Instr) (s t : State), i.isRequest = false → exec i s = .next t →
    t.functionFlags = s.functionFlags ∧ t.displayControlFlags = s.displayControlFlags ∧
    t.entryModeFlags = s.entryModeFlags ∧ t.lineCount = s.lineCount ∧ t.rowOffsets = s.rowOffsets ∧
    t.config = s.config ∧ t.pos = s.pos ∧ t.inbox = s.inbox ∧ s.trace <+: t.trace ∧
    (∀ l, drives s.bus l = false → t.level l = s.level l)

/-! ## Timing and strobe discipline -/

/-- R138, R270: in every request begun with `E` low, no data, `RS` or `RW` line is written while `E` is high, and `E`
ends low. -/
def Obligations.LinesAreStableWhileStrobeIsHigh : Prop :=
  ∀ (i : Instr) (s : State), s.level .e = false →
    quietWhileHigh false (eventsOf i s) = true ∧ levelOf (linesAfter s.lines (eventsOf i s)) .e = false

/-- R271, R281: in every request but `INIT`, begun with `E` low and the last latch point settled, successive latch
points are at least `T_SETTLE + T_SETUP + T_PULSE` apart (102 µs under the source's timing), no line is written within
`T_SETTLE` of a latch point, and the request ends settled again. (The latch view: log entry 19.) -/
def Obligations.LatchPointsAreSpaced : Prop :=
  ∀ (i : Instr) (s : State) (g : Nat), i ≠ .init → s.config.timing.tSettle ≤ g →
    (∀ k ∈ latchGaps false g (eventsOf i s),
      s.config.timing.tSettle + s.config.timing.tSetup + s.config.timing.tPulse ≤ k) ∧
    settledWrites s.config.timing.tSettle false g (eventsOf i s) = true ∧
    s.config.timing.tSettle ≤ gapAfter false g (eventsOf i s)

/-- R271, R274, R281: the guards before each latch point of `INIT` under the source's timing, begun with `E` low: at
least 50002 µs before the first, the handshake spacing, 2102 µs after the latch point that ends CLEARDISPLAY and 102 µs
after every other; no line is written within 100 µs of a latch point. (The latch view: log entry 19.) -/
def Obligations.InitLatchPointsAreSpaced : Prop :=
  ∀ s : State, s.config.timing = sourceTiming →
    latchGaps false 0 (eventsOf .init s) =
      (match s.config.bitMode with
        | .bit4 => [50002, 4602, 4602, 252, 102, 102, 102, 102, 102, 102, 2102, 102]
        | .bit8 => [50002, 4602, 252, 102, 102, 102, 2102]) ∧
    settledWrites 100 false 0 (eventsOf .init s) = true ∧
    gapAfter false 0 (eventsOf .init s) = 100

/-- R241: the guards any request asks of the Delay Service, under the source's timing. -/
def Obligations.GuardsAreOfTheStatedSet : Prop :=
  ∀ (i : Instr) (s : State) (n : Nat), s.config.timing = sourceTiming → Event.delay n ∈ eventsOf i s →
    n ∈ [1, 100, 150, 2000, 4500, 50000]
end

