-- ==== Sys2Proof/Laws/State.lean ====
section
/-! SUPPORT. Field lemmas: what each named operation leaves in each field of State, one lemma per field per update. -/

namespace Sys2Proof.Machine

/-! ## One event -/
@[simp] theorem State.emit_functionFlags (s : State) (e : Event) : (s.emit e).functionFlags = s.functionFlags := rfl
@[simp] theorem State.emit_displayControlFlags (s : State) (e : Event) : (s.emit e).displayControlFlags = s.displayControlFlags := rfl
@[simp] theorem State.emit_entryModeFlags (s : State) (e : Event) : (s.emit e).entryModeFlags = s.entryModeFlags := rfl
@[simp] theorem State.emit_lineCount (s : State) (e : Event) : (s.emit e).lineCount = s.lineCount := rfl
@[simp] theorem State.emit_rowOffsets (s : State) (e : Event) : (s.emit e).rowOffsets = s.rowOffsets := rfl
@[simp] theorem State.emit_config (s : State) (e : Event) : (s.emit e).config = s.config := rfl
@[simp] theorem State.emit_lines (s : State) (e : Event) : (s.emit e).lines = e.applyTo s.lines := rfl
@[simp] theorem State.emit_pos (s : State) (e : Event) : (s.emit e).pos = s.pos := rfl
@[simp] theorem State.emit_inbox (s : State) (e : Event) : (s.emit e).inbox = s.inbox := rfl
@[simp] theorem State.emit_trace (s : State) (e : Event) : (s.emit e).trace = s.trace ++ [e] := rfl

/-! ## A list of events -/

@[simp] theorem linesAfter_nil (ls : Lines) : linesAfter ls [] = ls := rfl

@[simp] theorem linesAfter_cons (ls : Lines) (e : Event) (es : List Event) :
    linesAfter ls (e :: es) = linesAfter (e.applyTo ls) es := rfl

@[simp] theorem linesAfter_append (ls : Lines) (es fs : List Event) :
    linesAfter ls (es ++ fs) = linesAfter (linesAfter ls es) fs := by
  simp [linesAfter]

/-- Everything a list of events does: latches and trace, nothing else. -/
theorem State.emitAll_eq (s : State) (es : List Event) :
    s.emitAll es = { s with lines := linesAfter s.lines es, trace := s.trace ++ es } := by
  induction es generalizing s with
  | nil => simp [State.emitAll]
  | cons e es ih =>
    have h : s.emitAll (e :: es) = (s.emit e).emitAll es := rfl
    simp [h, ih, State.emit]

@[simp] theorem State.emitAll_functionFlags (s : State) (es : List Event) : (s.emitAll es).functionFlags = s.functionFlags := by
  rw [State.emitAll_eq]

@[simp] theorem State.emitAll_displayControlFlags (s : State) (es : List Event) : (s.emitAll es).displayControlFlags = s.displayControlFlags := by
  rw [State.emitAll_eq]

@[simp] theorem State.emitAll_entryModeFlags (s : State) (es : List Event) : (s.emitAll es).entryModeFlags = s.entryModeFlags := by
  rw [State.emitAll_eq]

@[simp] theorem State.emitAll_lineCount (s : State) (es : List Event) : (s.emitAll es).lineCount = s.lineCount := by
  rw [State.emitAll_eq]

@[simp] theorem State.emitAll_rowOffsets (s : State) (es : List Event) : (s.emitAll es).rowOffsets = s.rowOffsets := by
  rw [State.emitAll_eq]

@[simp] theorem State.emitAll_config (s : State) (es : List Event) : (s.emitAll es).config = s.config := by
  rw [State.emitAll_eq]

@[simp] theorem State.emitAll_lines (s : State) (es : List Event) : (s.emitAll es).lines = linesAfter s.lines es := by
  rw [State.emitAll_eq]

@[simp] theorem State.emitAll_pos (s : State) (es : List Event) : (s.emitAll es).pos = s.pos := by
  rw [State.emitAll_eq]

@[simp] theorem State.emitAll_inbox (s : State) (es : List Event) : (s.emitAll es).inbox = s.inbox := by
  rw [State.emitAll_eq]

@[simp] theorem State.emitAll_trace (s : State) (es : List Event) : (s.emitAll es).trace = s.trace ++ es := by
  rw [State.emitAll_eq]

/-! ## Register writes: the fields no register write reaches -/

@[simp] theorem State.write_config (s : State) (w : RegWrite) : (s.write w).config = s.config := by
  cases w <;> rfl

@[simp] theorem State.write_lines (s : State) (w : RegWrite) : (s.write w).lines = s.lines := by
  cases w <;> rfl

@[simp] theorem State.write_pos (s : State) (w : RegWrite) : (s.write w).pos = s.pos := by
  cases w <;> rfl

@[simp] theorem State.write_inbox (s : State) (w : RegWrite) : (s.write w).inbox = s.inbox := by
  cases w <;> rfl

@[simp] theorem State.write_trace (s : State) (w : RegWrite) : (s.write w).trace = s.trace := by
  cases w <;> rfl

@[simp] theorem State.writeAll_config (s : State) (ws : List RegWrite) : (s.writeAll ws).config = s.config := by
  induction ws generalizing s with
  | nil => rfl
  | cons w ws ih => exact (ih (s.write w)).trans (State.write_config s w)

@[simp] theorem State.writeAll_lines (s : State) (ws : List RegWrite) : (s.writeAll ws).lines = s.lines := by
  induction ws generalizing s with
  | nil => rfl
  | cons w ws ih => exact (ih (s.write w)).trans (State.write_lines s w)

@[simp] theorem State.writeAll_pos (s : State) (ws : List RegWrite) : (s.writeAll ws).pos = s.pos := by
  induction ws generalizing s with
  | nil => rfl
  | cons w ws ih => exact (ih (s.write w)).trans (State.write_pos s w)

@[simp] theorem State.writeAll_inbox (s : State) (ws : List RegWrite) : (s.writeAll ws).inbox = s.inbox := by
  induction ws generalizing s with
  | nil => rfl
  | cons w ws ih => exact (ih (s.write w)).trans (State.write_inbox s w)

@[simp] theorem State.writeAll_trace (s : State) (ws : List RegWrite) : (s.writeAll ws).trace = s.trace := by
  induction ws generalizing s with
  | nil => rfl
  | cons w ws ih => exact (ih (s.write w)).trans (State.write_trace s w)

/-! ## Micro-steps: the fields they change in one way only -/

@[simp] theorem State.perform_config (s : State) (m : Micro) : (s.perform m).config = s.config := by
  simp [State.perform]

@[simp] theorem State.perform_pos (s : State) (m : Micro) : (s.perform m).pos = s.pos := by
  simp [State.perform]

@[simp] theorem State.perform_inbox (s : State) (m : Micro) : (s.perform m).inbox = s.inbox := by
  simp [State.perform]

@[simp] theorem State.perform_lines (s : State) (m : Micro) :
    (s.perform m).lines = m.event.applyTo s.lines := by
  simp [State.perform]

@[simp] theorem State.perform_trace (s : State) (m : Micro) : (s.perform m).trace = s.trace ++ [m.event] := by
  simp [State.perform]

@[simp] theorem State.performAll_nil (s : State) : s.performAll [] = s := rfl

@[simp] theorem State.performAll_cons (s : State) (m : Micro) (todo : List Micro) :
    s.performAll (m :: todo) = (s.perform m).performAll todo := rfl

@[simp] theorem State.performAll_append (s : State) (xs ys : List Micro) :
    s.performAll (xs ++ ys) = (s.performAll xs).performAll ys := by
  simp [State.performAll]

@[simp] theorem State.performAll_config (s : State) (todo : List Micro) : (s.performAll todo).config = s.config := by
  induction todo generalizing s with
  | nil => rfl
  | cons m todo ih => simp [ih]

@[simp] theorem State.performAll_pos (s : State) (todo : List Micro) : (s.performAll todo).pos = s.pos := by
  induction todo generalizing s with
  | nil => rfl
  | cons m todo ih => simp [ih]

@[simp] theorem State.performAll_inbox (s : State) (todo : List Micro) : (s.performAll todo).inbox = s.inbox := by
  induction todo generalizing s with
  | nil => rfl
  | cons m todo ih => simp [ih]

@[simp] theorem State.performAll_lines (s : State) (todo : List Micro) :
    (s.performAll todo).lines = linesAfter s.lines (todo.map Micro.event) := by
  induction todo generalizing s with
  | nil => rfl
  | cons m todo ih => simp [ih]

@[simp] theorem State.performAll_trace (s : State) (todo : List Micro) :
    (s.performAll todo).trace = s.trace ++ todo.map Micro.event := by
  induction todo generalizing s with
  | nil => simp
  | cons m todo ih => simp [ih]

/-! ## Acceptance -/

@[simp] theorem State.start_functionFlags (s : State) (i : Instr) (todo : List Micro) :
    (s.start i todo).functionFlags = s.functionFlags := rfl

@[simp] theorem State.start_displayControlFlags (s : State) (i : Instr) (todo : List Micro) :
    (s.start i todo).displayControlFlags = s.displayControlFlags := rfl

@[simp] theorem State.start_entryModeFlags (s : State) (i : Instr) (todo : List Micro) :
    (s.start i todo).entryModeFlags = s.entryModeFlags := rfl

@[simp] theorem State.start_lineCount (s : State) (i : Instr) (todo : List Micro) :
    (s.start i todo).lineCount = s.lineCount := rfl

@[simp] theorem State.start_rowOffsets (s : State) (i : Instr) (todo : List Micro) :
    (s.start i todo).rowOffsets = s.rowOffsets := rfl

@[simp] theorem State.start_config (s : State) (i : Instr) (todo : List Micro) :
    (s.start i todo).config = s.config := rfl

@[simp] theorem State.start_lines (s : State) (i : Instr) (todo : List Micro) :
    (s.start i todo).lines = s.lines := rfl

@[simp] theorem State.start_pos (s : State) (i : Instr) (todo : List Micro) :
    (s.start i todo).pos = .resume i 0 todo := rfl

@[simp] theorem State.start_inbox (s : State) (i : Instr) (todo : List Micro) :
    (s.start i todo).inbox = s.inbox := rfl

@[simp] theorem State.start_trace (s : State) (i : Instr) (todo : List Micro) :
    (s.start i todo).trace = s.trace := rfl

end Sys2Proof.Machine
end

