-- ==== Sys2Proof/Laws/BusTransfer.lean ====
section
/-! SUPPORT. What each Bus Transfer micro-operation does to the latches, what it latches, and how long it is
(40_bus_transfer.md R131 to R138). -/

namespace Sys2Proof.Machine

/-! ## Latches -/

theorem Line.id_injective {l k : Line} (h : l.id.val = k.id.val) : l = k := by
  cases l <;> cases k <;> simp [Line.id] at h <;> first | rfl | (congr; exact Fin.ext h) | omega

@[simp] theorem levelOf_set_self (ls : Lines) (l : Line) (v : Level) :
    levelOf ((Event.setLine l v).applyTo ls) l = v := by
  simp [levelOf, Event.applyTo]

theorem levelOf_set_ne (ls : Lines) {l k : Line} (v : Level) (h : l ≠ k) :
    levelOf ((Event.setLine l v).applyTo ls) k = levelOf ls k := by
  have hne : l.id.val ≠ k.id.val := fun hid => h (Line.id_injective hid)
  simp [levelOf, Event.applyTo, hne]

/-- A line write sets its line and leaves every other (10_state.md R35). -/
theorem levelOf_set (ls : Lines) (l k : Line) (v : Level) :
    levelOf ((Event.setLine l v).applyTo ls) k = if l = k then v else levelOf ls k := by
  by_cases h : l = k
  · subst h; simp
  · simp [h, levelOf_set_ne ls v h]

@[simp] theorem levelOf_delay (ls : Lines) (n : Nat) (k : Line) :
    levelOf ((Event.delay n).applyTo ls) k = levelOf ls k := rfl

theorem State.level_eq (s : State) (l : Line) : s.level l = levelOf s.lines l := rfl

/-! ## Latched words of lists -/

@[simp] theorem latchedWords_nil (b : BusParams) (ls : Lines) : latchedWords b ls [] = [] := rfl

theorem latchedWords_append (b : BusParams) (ls : Lines) (es fs : List Event) :
    latchedWords b ls (es ++ fs) = latchedWords b ls es ++ latchedWords b (linesAfter ls es) fs := by
  induction es generalizing ls with
  | nil => rfl
  | cons e es ih => simp only [List.cons_append, latchedWords, ih, linesAfter_cons, List.append_assoc]

@[simp] theorem latchedWords_delay (b : BusParams) (ls : Lines) (n : Nat) (es : List Event) :
    latchedWords b ls (.delay n :: es) = latchedWords b ls es := rfl

@[simp] theorem latchedWords_d (b : BusParams) (ls : Lines) (i : Fin 8) (v : Level) (es : List Event) :
    latchedWords b ls (.setLine (.d i) v :: es)
      = latchedWords b ((Event.setLine (.d i) v).applyTo ls) es := rfl

@[simp] theorem latchedWords_rs (b : BusParams) (ls : Lines) (v : Level) (es : List Event) :
    latchedWords b ls (.setLine .rs v :: es) = latchedWords b ((Event.setLine .rs v).applyTo ls) es := rfl

@[simp] theorem latchedWords_rw (b : BusParams) (ls : Lines) (v : Level) (es : List Event) :
    latchedWords b ls (.setLine .rw v :: es) = latchedWords b ((Event.setLine .rw v).applyTo ls) es := rfl

/-! ## Data read back from the latches -/

theorem dataByte_getLsbD (ls : Lines) (i : Fin 8) : (dataByte ls).getLsbD i.val = levelOf ls (.d i) := by
  unfold dataByte
  fin_cases i <;> simp only [BitVec.getLsbD_append, BitVec.getLsbD_ofBool] <;> rfl

theorem dataNibble_getLsbD (base : NibbleBase) (ls : Lines) (i : Fin 4) :
    (dataNibble base ls).getLsbD i.val = levelOf ls (nibbleLine base i) := by
  unfold dataNibble
  fin_cases i <;> simp only [BitVec.getLsbD_append, BitVec.getLsbD_ofBool] <;> rfl

theorem dataByte_eq {ls : Lines} {v : Byte} (h : ∀ i : Fin 8, levelOf ls (.d i) = v.getLsbD i.val) :
    dataByte ls = v := by
  apply BitVec.eq_of_getLsbD_eq
  intro i hi
  rw [← h ⟨i, hi⟩]
  exact dataByte_getLsbD ls ⟨i, hi⟩

theorem dataNibble_eq {base : NibbleBase} {ls : Lines} {n : Nibble}
    (h : ∀ i : Fin 4, levelOf ls (nibbleLine base i) = n.getLsbD i.val) : dataNibble base ls = n := by
  apply BitVec.eq_of_getLsbD_eq
  intro i hi
  rw [← h ⟨i, hi⟩]
  exact dataNibble_getLsbD base ls ⟨i, hi⟩

/-! ## Durations and counts -/

@[simp] theorem minDuration_nil : minDuration [] = 0 := rfl

@[simp] theorem minDuration_cons (e : Event) (es : List Event) :
    minDuration (e :: es) = e.guard + minDuration es := by
  simp [minDuration]

@[simp] theorem minDuration_append (es fs : List Event) :
    minDuration (es ++ fs) = minDuration es + minDuration fs := by
  simp [minDuration]

@[simp] theorem length_pulseStrobe (t : Timing) : (pulseStrobe t).length = 6 := rfl

@[simp] theorem minDuration_pulseStrobe (t : Timing) :
    minDuration (pulseStrobe t) = t.tSetup + t.tPulse + t.tSettle := by
  simp [pulseStrobe, Event.guard]; omega

@[simp] theorem length_drive8 (b : BusParams) (v : Byte) : (drive8 b v).length = 14 := rfl

@[simp] theorem minDuration_drive8 (b : BusParams) (v : Byte) :
    minDuration (drive8 b v) = b.timing.tSetup + b.timing.tPulse + b.timing.tSettle := by
  simp [drive8, Event.guard]

@[simp] theorem length_drive4 (b : BusParams) (n : Byte) : (drive4 b n).length = 10 := rfl

@[simp] theorem minDuration_drive4 (b : BusParams) (n : Byte) :
    minDuration (drive4 b n) = b.timing.tSetup + b.timing.tPulse + b.timing.tSettle := by
  simp [drive4, Event.guard]

/-- The event count `B` of one byte transfer (43_display_ops.md R212). -/
def transferEvents (b : BusParams) : Nat := (if b.dl then 15 else 21) + (if b.rwWired then 1 else 0)

/-- The minimum duration `T` of one byte transfer (R212). -/
def transferTime (b : BusParams) : Nat :=
  (if b.dl then 1 else 2) * (b.timing.tSetup + b.timing.tPulse + b.timing.tSettle)

theorem length_transferByte (b : BusParams) (v : Byte) (mode : RegSel) :
    (transferByte b v mode).length = transferEvents b := by
  cases hd : b.dl <;> cases hr : b.rwWired <;> simp [transferByte, selectRegister, transferEvents, hd, hr]

theorem minDuration_transferByte (b : BusParams) (v : Byte) (mode : RegSel) :
    minDuration (transferByte b v mode) = transferTime b := by
  cases hd : b.dl <;> cases hr : b.rwWired <;>
    simp [transferByte, selectRegister, transferTime, hd, hr, Event.guard] <;> omega

theorem length_writeBytesEvents (b : BusParams) (vs : List Byte) :
    (writeBytesEvents b vs).length = vs.length * transferEvents b := by
  induction vs with
  | nil => simp [writeBytesEvents]
  | cons v vs ih =>
    have h : writeBytesEvents b (v :: vs) = writeByteEvents b v ++ writeBytesEvents b vs := rfl
    rw [h, List.length_append, ih, writeByteEvents, length_transferByte, List.length_cons, Nat.succ_mul]
    omega

theorem minDuration_writeBytesEvents (b : BusParams) (vs : List Byte) :
    minDuration (writeBytesEvents b vs) = vs.length * transferTime b := by
  induction vs with
  | nil => simp [writeBytesEvents]
  | cons v vs ih =>
    have h : writeBytesEvents b (v :: vs) = writeByteEvents b v ++ writeBytesEvents b vs := rfl
    rw [h, minDuration_append, ih, writeByteEvents, minDuration_transferByte, List.length_cons, Nat.succ_mul]
    omega

/-! ## The strobe -/

/-- After a strobe `E` is low and no other line has moved (R131, R138). -/
theorem levelOf_pulseStrobe (t : Timing) (ls : Lines) (k : Line) :
    levelOf (linesAfter ls (pulseStrobe t)) k = if k = .e then false else levelOf ls k := by
  by_cases h : k = .e
  · subst h
    simp [pulseStrobe]
  · have h' : Line.e ≠ k := fun hk => h hk.symm
    simp [pulseStrobe, levelOf_set, h, h']

theorem latchedNow_congr (b : BusParams) {ls ks : Lines}
    (h : ∀ k, k ≠ Line.e → levelOf ls k = levelOf ks k) : latchedNow b ls = latchedNow b ks := by
  have hd : dataByte ls = dataByte ks := dataByte_eq fun i => by
    rw [dataByte_getLsbD]; exact h _ (by simp)
  have hn : dataNibble b.nibbleBase ls = dataNibble b.nibbleBase ks := dataNibble_eq fun i => by
    rw [dataNibble_getLsbD]
    exact h _ (by cases b.nibbleBase <;> simp [nibbleLine])
  have hrs := h .rs (by simp)
  have hrw := h .rw (by simp)
  simp [latchedNow, hd, hn, hrs, hrw]

/-- A strobe that begins with `E` low has exactly one latch point (R131). -/
theorem latchedWords_pulseStrobe (b : BusParams) (t : Timing) {ls : Lines} (h : levelOf ls .e = false) :
    latchedWords b ls (pulseStrobe t) = [latchedNow b ls] := by
  simp only [pulseStrobe, latchedWords, h, levelOf_delay, levelOf_set_self]
  simp only [List.nil_append, List.append_nil]
  refine congrArg (· :: []) ?_
  apply latchedNow_congr
  intro k hk
  have hk' : Line.e ≠ k := fun e => hk e.symm
  simp [levelOf_set, hk']

/-! ## Transfers -/

/-- After an 8-line transfer the data lines hold the byte, `E` is low, and `RS` and `RW` have not moved (R133, R138). -/
theorem levelOf_drive8 (b : BusParams) (v : Byte) (ls : Lines) (k : Line) :
    levelOf (linesAfter ls (drive8 b v)) k =
      match k with
      | .d i => v.getLsbD i.val
      | .e => false
      | .rs => levelOf ls .rs
      | .rw => levelOf ls .rw := by
  simp only [drive8, linesAfter_append, levelOf_pulseStrobe]
  cases k with
  | d i => fin_cases i <;> simp [levelOf_set]
  | rs => simp [levelOf_set]
  | rw => simp [levelOf_set]
  | e => simp

/-- After a 4-line transfer the four nibble lines hold the nibble, `E` is low, and no other line has moved (R134,
R138). -/
theorem levelOf_drive4_nibble (b : BusParams) (n : Byte) (ls : Lines) (i : Fin 4) :
    levelOf (linesAfter ls (drive4 b n)) (nibbleLine b.nibbleBase i) = n.getLsbD i.val := by
  simp only [drive4, linesAfter_append, levelOf_pulseStrobe]
  cases b.nibbleBase <;> fin_cases i <;> simp [levelOf_set, nibbleLine]

theorem levelOf_drive4_e (b : BusParams) (n : Byte) (ls : Lines) :
    levelOf (linesAfter ls (drive4 b n)) .e = false := by
  simp [drive4, levelOf_pulseStrobe]

theorem levelOf_drive4_other (b : BusParams) (n : Byte) (ls : Lines) {k : Line} (he : k ≠ .e)
    (hk : ∀ i, nibbleLine b.nibbleBase i ≠ k) : levelOf (linesAfter ls (drive4 b n)) k = levelOf ls k := by
  simp [drive4, levelOf_pulseStrobe, he, levelOf_set, hk]

/-- The one latched word of an 8-line transfer that begins with `E` low (R133). -/
theorem latchedWords_drive8 (b : BusParams) (v : Byte) {ls : Lines} (h : levelOf ls .e = false)
    (hd : b.dl = true) :
    latchedWords b ls (drive8 b v)
      = [⟨levelOf ls .rs, if b.rwWired then some (levelOf ls .rw) else none, .byte v⟩] := by
  unfold drive8
  rw [latchedWords_append]
  simp only [latchedWords_d, latchedWords_nil, List.nil_append]
  rw [latchedWords_pulseStrobe b b.timing (by simp [levelOf_set, h])]
  have hv : ∀ ks : Lines, (∀ i : Fin 8, levelOf ks (.d i) = v.getLsbD i.val) →
      levelOf ks .rs = levelOf ls .rs → levelOf ks .rw = levelOf ls .rw →
      latchedNow b ks = ⟨levelOf ls .rs, if b.rwWired then some (levelOf ls .rw) else none, .byte v⟩ := by
    intro ks hi hrs hrw
    simp [latchedNow, hd, dataByte_eq hi, hrs, hrw]
  rw [hv]
  · intro i; fin_cases i <;> simp [levelOf_set]
  · simp [levelOf_set]
  · simp [levelOf_set]

/-- The one latched word of a 4-line transfer that begins with `E` low (R134). -/
theorem latchedWords_drive4 (b : BusParams) (n : Byte) {ls : Lines} (h : levelOf ls .e = false)
    (hd : b.dl = false) :
    latchedWords b ls (drive4 b n)
      = [⟨levelOf ls .rs, if b.rwWired then some (levelOf ls .rw) else none,
          .nibble (n.extractLsb' 0 4)⟩] := by
  have hv : ∀ ks : Lines, (∀ i : Fin 4, levelOf ks (nibbleLine b.nibbleBase i) = n.getLsbD i.val) →
      levelOf ks .rs = levelOf ls .rs → levelOf ks .rw = levelOf ls .rw →
      latchedNow b ks = ⟨levelOf ls .rs, if b.rwWired then some (levelOf ls .rw) else none,
        .nibble (n.extractLsb' 0 4)⟩ := by
    intro ks hi hrs hrw
    have hn : dataNibble b.nibbleBase ks = n.extractLsb' 0 4 := dataNibble_eq fun i => by
      rw [hi i]; fin_cases i <;> simp
    simp [latchedNow, hd, hn, hrs, hrw]
  unfold drive4
  rw [latchedWords_append]
  cases hb : b.nibbleBase <;> simp only [nibbleLine, latchedWords_d, latchedWords_nil, List.nil_append] <;>
    rw [latchedWords_pulseStrobe b b.timing (by simp [levelOf_set, h]), hv] <;>
    first
      | (intro i; fin_cases i <;> simp [levelOf_set, hb, nibbleLine])
      | simp [levelOf_set]

/-- What `SelectRegister` leaves on the lines (R135). -/
theorem levelOf_selectRegister (b : BusParams) (mode : RegSel) (ls : Lines) (k : Line) :
    levelOf (linesAfter ls (selectRegister b mode)) k =
      match k with
      | .rs => modeLevel mode
      | .rw => if b.rwWired then false else levelOf ls .rw
      | .d i => levelOf ls (.d i)
      | .e => levelOf ls .e := by
  cases hr : b.rwWired <;> cases k <;> simp [selectRegister, hr, levelOf_set]

@[simp] theorem latchedWords_selectRegister (b : BusParams) (mode : RegSel) (ls : Lines) :
    latchedWords b ls (selectRegister b mode) = [] := by
  cases hr : b.rwWired <;> simp [selectRegister, hr]

/-- The words one byte transfer latches, `E` being low at its start: the byte, or its two nibbles, high first, all
with the selected register and with `RW` low where it is wired (R136, R137). -/
def transferWords (b : BusParams) (v : Byte) (mode : RegSel) : List Latched :=
  if b.dl then [⟨modeLevel mode, if b.rwWired then some false else none, .byte v⟩]
  else [⟨modeLevel mode, if b.rwWired then some false else none, .nibble (v.extractLsb' 4 4)⟩,
    ⟨modeLevel mode, if b.rwWired then some false else none, .nibble (v.extractLsb' 0 4)⟩]

theorem latchedWords_transferByte (b : BusParams) (v : Byte) (mode : RegSel) {ls : Lines}
    (h : levelOf ls .e = false) : latchedWords b ls (transferByte b v mode) = transferWords b v mode := by
  have hE : levelOf (linesAfter ls (selectRegister b mode)) .e = false := by
    rw [levelOf_selectRegister]; exact h
  have hrs : levelOf (linesAfter ls (selectRegister b mode)) .rs = modeLevel mode := levelOf_selectRegister ..
  have hrw : (if b.rwWired then some (levelOf (linesAfter ls (selectRegister b mode)) .rw) else none)
      = (if b.rwWired then some false else none : Option Level) := by
    cases hw : b.rwWired <;> simp [levelOf_selectRegister, hw]
  unfold transferByte
  rw [latchedWords_append, latchedWords_selectRegister, List.nil_append]
  cases hd : b.dl with
  | true => simp only [if_true, transferWords, hd]; rw [latchedWords_drive8 b v hE hd, hrs, hrw]
  | false =>
    have hi : (highNibble v).extractLsb' 0 4 = v.extractLsb' 4 4 := by
      apply BitVec.eq_of_getLsbD_eq; intro i hi; simp [highNibble, hi, Nat.add_comm]
    have lo : (lowNibble v).extractLsb' 0 4 = v.extractLsb' 0 4 := by
      apply BitVec.eq_of_getLsbD_eq
      intro i hi
      have : i = 0 ∨ i = 1 ∨ i = 2 ∨ i = 3 := by omega
      rcases this with rfl | rfl | rfl | rfl <;> simp [lowNibble]
    simp only [Bool.false_eq_true, if_false, transferWords, hd]
    rw [latchedWords_append, latchedWords_drive4 b _ hE hd,
      latchedWords_drive4 b _ (levelOf_drive4_e b _ _) hd]
    have hrs2 : levelOf (linesAfter (linesAfter ls (selectRegister b mode)) (drive4 b (highNibble v))) .rs
        = modeLevel mode := by
      rw [levelOf_drive4_other b _ _ (by simp) (by cases b.nibbleBase <;> simp [nibbleLine]), hrs]
    have hrw2 : levelOf (linesAfter (linesAfter ls (selectRegister b mode)) (drive4 b (highNibble v))) .rw
        = levelOf (linesAfter ls (selectRegister b mode)) .rw :=
      levelOf_drive4_other b _ _ (by simp) (by cases b.nibbleBase <;> simp [nibbleLine])
    rw [hrs2, hrw2, hrs, hrw, hi, lo]
    rfl

/-- `E` is low after a byte transfer (R138). -/
theorem levelOf_transferByte_e (b : BusParams) (v : Byte) (mode : RegSel) (ls : Lines) :
    levelOf (linesAfter ls (transferByte b v mode)) .e = false := by
  cases hd : b.dl <;> simp [transferByte, hd, levelOf_drive8, levelOf_drive4_e]

/-- "(high nibble then low nibble) reconstructs v" (R137). -/
theorem nibbles_join (v : Byte) : v.extractLsb' 4 4 ++ v.extractLsb' 0 4 = v := by
  rw [BitVec.extractLsb'_append_extractLsb'_eq_extractLsb' (by omega)]
  simp

/-- The bytes that the words of one transfer form begin what is received (R137). -/
theorem receivedBytes_transferWords (b : BusParams) (v : Byte) (mode : RegSel) (rest : List Latched) :
    receivedBytes (transferWords b v mode ++ rest) = (modeLevel mode, v) :: receivedBytes rest := by
  cases hd : b.dl with
  | true => simp [transferWords, hd, receivedBytes]
  | false =>
    have h : v.extractLsb' 4 4 ++ v.extractLsb' 0 4 = v := nibbles_join v
    simp [transferWords, hd, receivedBytes, h]

/-- A transfer first in a list: the byte it sends, then what the rest sends. -/
theorem sentBytes_transferByte (b : BusParams) (v : Byte) (mode : RegSel) {ls : Lines}
    (h : levelOf ls .e = false) (es : List Event) :
    sentBytes b ls (transferByte b v mode ++ es)
      = (modeLevel mode, v) :: sentBytes b (linesAfter ls (transferByte b v mode)) es := by
  unfold sentBytes
  rw [latchedWords_append, latchedWords_transferByte b v mode h, receivedBytes_transferWords]

@[simp] theorem sentBytes_delay (b : BusParams) (ls : Lines) (n : Nat) (es : List Event) :
    sentBytes b ls (.delay n :: es) = sentBytes b ls es := rfl

@[simp] theorem sentBytes_nil (b : BusParams) (ls : Lines) : sentBytes b ls [] = [] := rfl

/-- Data writes send their bytes in order (43_display_ops.md R208, R209). -/
theorem sentBytes_writeBytesEvents (b : BusParams) (vs : List Byte) {ls : Lines}
    (h : levelOf ls .e = false) :
    sentBytes b ls (writeBytesEvents b vs) = vs.map (fun v => (true, v)) := by
  induction vs generalizing ls with
  | nil => rfl
  | cons v vs ih =>
    have hc : writeBytesEvents b (v :: vs) = transferByte b v .data ++ writeBytesEvents b vs := rfl
    rw [hc, sentBytes_transferByte b v .data h, ih (levelOf_transferByte_e b v .data ls)]
    rfl

theorem levelOf_writeBytesEvents_e (b : BusParams) (vs : List Byte) {ls : Lines} (h : levelOf ls .e = false) :
    levelOf (linesAfter ls (writeBytesEvents b vs)) .e = false := by
  induction vs generalizing ls with
  | nil => exact h
  | cons v vs ih =>
    have hc : writeBytesEvents b (v :: vs) = transferByte b v .data ++ writeBytesEvents b vs := rfl
    rw [hc, linesAfter_append]
    exact ih (levelOf_transferByte_e b v .data ls)

end Sys2Proof.Machine
end

