-- ==== Sys2Proof/Laws/Decode.lean ====
section
/-! SUPPORT. What the parts of the decoder do (30_encoding.md R92, R95, R96). -/

namespace Sys2Proof

/-- A text without a 0x00, its terminator and more bytes: split at the terminator (R92). -/
theorem splitText_append (term : Byte) (text rest : List Byte) (h : text.all (· != term) = true) :
    splitText term (text ++ term :: rest) = some (text, rest) := by
  induction text with
  | nil => simp [splitText]
  | cons b text ih =>
    simp only [List.all_cons, Bool.and_eq_true, bne_iff_ne, ne_eq] at h
    have ih' := ih (by simpa using h.2)
    simp [splitText, h.1, ih']

/-- What a split says of the bytes (R92). -/
theorem splitText_eq_some {term : Byte} {bs text rest : List Byte} (h : splitText term bs = some (text, rest)) :
    bs = text ++ term :: rest ∧ text.all (· != term) = true := by
  induction bs generalizing text with
  | nil => simp [splitText] at h
  | cons b bs ih =>
    unfold splitText at h
    split at h
    · rename_i hb
      simp only [Option.some.injEq, Prod.mk.injEq] at h
      obtain ⟨rfl, rfl⟩ := h
      simp [hb]
    · rename_i hb
      split at h
      · rename_i text' rest' hs
        simp only [Option.some.injEq, Prod.mk.injEq] at h
        obtain ⟨rfl, rfl⟩ := h
        have := ih hs
        simp [this.1, this.2, hb]
      · exact absurd h (by simp)

/-- No terminator, no request (R96). -/
theorem splitText_eq_none {term : Byte} {bs : List Byte} : splitText term bs = none ↔ bs.all (· != term) = true := by
  induction bs with
  | nil => simp [splitText]
  | cons b bs ih =>
    unfold splitText
    by_cases hb : b = term
    · simp [hb]
    · simp only [hb, if_false, List.all_cons]
      cases hs : splitText term bs with
      | none => simp [hb, ih.mp hs]
      | some p =>
        have : bs.all (· != term) ≠ true := fun hall => by rw [ih.mpr hall] at hs; exact absurd hs (by simp)
        simp [this]

end Sys2Proof
end

