-- ==== Sys2Proof/Laws/Ops.lean ====
section
/-! SUPPORT. One lemma per shared operation saying everything it can do, for the provers to cite instead of
unfolding it. -/

namespace Sys2Proof.Machine

/-! ## Registers and events do not meet -/

theorem State.write_emit (s : State) (w : RegWrite) (e : Event) :
    (s.emit e).write w = (s.write w).emit e := by
  cases w <;> rfl

theorem State.writeAll_emit (s : State) (ws : List RegWrite) (e : Event) :
    (s.emit e).writeAll ws = (s.writeAll ws).emit e := by
  induction ws generalizing s with
  | nil => rfl
  | cons w ws ih =>
    have h : (s.emit e).writeAll (w :: ws) = ((s.emit e).write w).writeAll ws := rfl
    rw [h, State.write_emit, ih]; rfl

theorem State.writeAll_emitAll (s : State) (ws : List RegWrite) (es : List Event) :
    (s.emitAll es).writeAll ws = (s.writeAll ws).emitAll es := by
  induction es generalizing s with
  | nil => rfl
  | cons e es ih =>
    have h : s.emitAll (e :: es) = (s.emit e).emitAll es := rfl
    rw [h, ih, State.writeAll_emit]; rfl

@[simp] theorem State.emitAll_append (s : State) (es fs : List Event) :
    s.emitAll (es ++ fs) = (s.emitAll es).emitAll fs := by
  simp [State.emitAll]

@[simp] theorem State.writeAll_append (s : State) (ws vs : List RegWrite) :
    s.writeAll (ws ++ vs) = (s.writeAll ws).writeAll vs := by
  simp [State.writeAll]

/-- Micro-steps without register writes only emit. -/
theorem State.performAll_events (s : State) (es : List Event) :
    s.performAll (es.map (fun e => ⟨[], e⟩)) = s.emitAll es := by
  induction es generalizing s with
  | nil => rfl
  | cons e es ih => exact ih (s.emit e)

/-- Micro-steps in two parts: the registers, then the events. -/
theorem State.performAll_eq (s : State) (todo : List Micro) :
    s.performAll todo = (s.writeAll (todo.flatMap Micro.writes)).emitAll (todo.map Micro.event) := by
  induction todo generalizing s with
  | nil => rfl
  | cons m todo ih =>
    rw [State.performAll_cons, ih]
    simp only [State.perform, List.flatMap_cons, List.map_cons, State.writeAll_append]
    rw [State.writeAll_emit]; rfl

/-! ## Segments and steps -/

@[simp] theorem segment_map_event (ws : List RegWrite) (es : List Event) :
    (segment ws es).map Micro.event = es := by
  cases es with
  | nil => rfl
  | cons e es => simp [segment, Function.comp_def]

theorem segment_flatMap_writes (ws : List RegWrite) {es : List Event} (h : es ≠ []) :
    (segment ws es).flatMap Micro.writes = ws := by
  cases es with
  | nil => exact absurd rfl h
  | cons e es => simp [segment, List.flatMap_map]

@[simp] theorem segment_nil_flatMap_writes (es : List Event) :
    (segment [] es).flatMap Micro.writes = [] := by
  cases es with
  | nil => rfl
  | cons e es => exact segment_flatMap_writes [] (by simp)

@[simp] theorem segment_eq_nil (ws : List RegWrite) (es : List Event) : segment ws es = [] ↔ es = [] := by
  cases es <;> simp [segment]

/-- A segment with an event: its writes, then its events. -/
theorem State.performAll_segment (s : State) (ws : List RegWrite) {es : List Event} (h : es ≠ []) :
    s.performAll (segment ws es) = (s.writeAll ws).emitAll es := by
  rw [State.performAll_eq, segment_map_event, segment_flatMap_writes ws h]

/-- A segment without writes only emits. -/
theorem State.performAll_segment_nil (s : State) (es : List Event) :
    s.performAll (segment [] es) = s.emitAll es := by
  rw [State.performAll_eq, segment_map_event, segment_nil_flatMap_writes]; rfl

/-- The events of a sequence of steps, in order. -/
theorem weave_map_event (pending : List RegWrite) (steps : List (List RegWrite × List Event)) :
    (weave pending steps).map Micro.event = steps.flatMap Prod.snd := by
  induction steps generalizing pending with
  | nil => rfl
  | cons st steps ih =>
    obtain ⟨ws, es⟩ := st
    cases es with
    | nil => simpa [weave] using ih (pending ++ ws)
    | cons e es => simp [weave, ih]

/-- The register writes of a sequence of steps whose last step has an event, in order. -/
theorem weave_flatMap_writes (pending : List RegWrite) (steps : List (List RegWrite × List Event))
    (last : List RegWrite × List Event) (h : last.2 ≠ []) :
    (weave pending (steps ++ [last])).flatMap Micro.writes
      = pending ++ (steps ++ [last]).flatMap Prod.fst := by
  induction steps generalizing pending with
  | nil =>
    obtain ⟨ws, es⟩ := last
    cases es with
    | nil => exact absurd rfl h
    | cons e es => simp [weave, segment_flatMap_writes]
  | cons st steps ih =>
    obtain ⟨ws, es⟩ := st
    cases es with
    | nil => simpa [weave] using ih (pending ++ ws)
    | cons e es => simpa [weave, segment_flatMap_writes] using ih []

/-! ## Running a request to its end -/

theorem State.emit_withPos (s : State) (e : Event) (p : Position) :
    { s.emit e with pos := p } = ({ s with pos := p } : State).emit e := rfl

theorem State.write_withPos (s : State) (w : RegWrite) (p : Position) :
    { s.write w with pos := p } = ({ s with pos := p } : State).write w := by
  cases w <;> rfl

theorem State.writeAll_withPos (s : State) (ws : List RegWrite) (p : Position) :
    { s.writeAll ws with pos := p } = ({ s with pos := p } : State).writeAll ws := by
  induction ws generalizing s with
  | nil => rfl
  | cons w ws ih =>
    have h := ih (s.write w)
    rw [State.write_withPos] at h
    exact h

/-- Micro-steps neither read nor write the position. -/
theorem State.performAll_withPos (s : State) (todo : List Micro) (p : Position) :
    { s.performAll todo with pos := p } = ({ s with pos := p } : State).performAll todo := by
  induction todo generalizing s with
  | nil => rfl
  | cons m todo ih =>
    have h := ih (s.perform m)
    have h2 : { s.perform m with pos := p } = ({ s with pos := p } : State).perform m := by
      simp only [State.perform]
      rw [State.emit_withPos, State.writeAll_withPos]
    rw [h2] at h
    exact h

/-- An accepted request, run to its end. -/
theorem State.settle_start (s : State) (i : Instr) (todo : List Micro) :
    (s.start i todo).settle = { s.performAll todo with pos := .ready } := by
  cases todo with
  | nil => rfl
  | cons m todo =>
    have h : (s.start i (m :: todo)).settle
        = { (s.start i (m :: todo)).performAll (m :: todo) with pos := .ready } := rfl
    rw [h, State.performAll_withPos, State.performAll_withPos]
    rfl

theorem State.settle_of_ready {s : State} (h : s.pos = .ready) : s.settle = s := by
  simp [State.settle, h]

theorem State.settle_of_uninit {s : State} (h : s.pos = .uninit) : s.settle = s := by
  simp [State.settle, h]

theorem State.settle_of_running {s : State} {p : Progress} (h : s.pos = .running p) :
    s.settle = { s.performAll p.todo with pos := .ready } := by
  simp [State.settle, h]

/-- The three forms of a position (10_state.md R40). -/
theorem State.pos_cases (s : State) : s.pos = .uninit ∨ (∃ p, s.pos = .running p) ∨ s.pos = .ready := by
  cases s.pos with
  | uninit => exact .inl rfl
  | running p => exact .inr (.inl ⟨p, rfl⟩)
  | ready => exact .inr (.inr rfl)

@[simp] theorem State.settle_config (s : State) : s.settle.config = s.config := by
  rcases s.pos_cases with hs | ⟨p, hs⟩ | hs
  · rw [State.settle_of_uninit hs]
  · rw [State.settle_of_running hs]; simp
  · rw [State.settle_of_ready hs]

/-! ## The levels of the lines (10_state.md R35): micro-steps set them and never read them -/

theorem State.writeAll_withLines (s : State) (ws : List RegWrite) (ls : Lines) :
    ({ s with lines := ls } : State).writeAll ws = { s.writeAll ws with lines := ls } := by
  induction ws generalizing s with
  | nil => rfl
  | cons w ws ih =>
    have h1 : ({ s with lines := ls } : State).write w = { s.write w with lines := ls } := by cases w <;> rfl
    have h2 := ih (s.write w)
    rw [← h1] at h2
    exact h2

theorem State.performAll_withLines (s : State) (ls : Lines) (todo : List Micro) :
    ({ s with lines := ls } : State).performAll todo
      = { s.performAll todo with lines := linesAfter ls (todo.map Micro.event) } := by
  induction todo generalizing s ls with
  | nil => rfl
  | cons m rest ih =>
    have h : ({ s with lines := ls } : State).perform m = { s.perform m with lines := m.event.applyTo ls } := by
      simp only [State.perform, State.writeAll_withLines]; rfl
    rw [State.performAll_cons, State.performAll_cons, h]
    exact ih (s.perform m) _

/-- After settling the block is idle. -/
theorem State.settle_pos (s : State) :
    s.settle.pos = .ready ∨ (s.settle.pos = .uninit ∧ s.settle = s ∧ s.pos = .uninit) := by
  cases h : s.pos with
  | uninit => exact .inr ⟨by rw [State.settle_of_uninit h, h], State.settle_of_uninit h, rfl⟩
  | ready => exact .inl (by rw [State.settle_of_ready h, h])
  | running p => exact .inl (by rw [State.settle_of_running h])

/-- One micro-step does not change where the request ends (10_state.md R42, R43). -/
theorem State.settle_tick {s : State} {p : Progress} (h : s.pos = .running p) :
    (s.tick p).settle = s.settle := by
  rw [State.settle_of_running h]
  cases hp : p.todo with
  | nil =>
    simp only [State.tick, hp, State.performAll_nil]
    exact State.settle_of_ready rfl
  | cons m rest =>
    simp only [State.tick, hp, State.performAll_cons]
    cases rest with
    | nil => exact State.settle_of_ready rfl
    | cons m2 rest =>
      rw [State.settle_of_running (p := ⟨p.request, p.idx + 1, m2 :: rest⟩) rfl]
      rw [State.performAll_withPos, State.performAll_withPos]

/-! ## Acceptance: what the shared operations answer -/

/-- A request other than `INIT` in `READY` (10_state.md R41): it runs to its last event. -/
theorem State.acceptInReady_of_ready {s : State} (h : s.pos = .ready) (i : Instr)
    (program : State → List Micro) : s.acceptInReady i program = .next (s.performAll (program s)) := by
  simp only [State.acceptInReady, State.settle_of_ready h, h, State.settle_start]
  rw [State.performAll_withPos]
  rw [← h]

/-- A request other than `INIT` in `UNINIT` (R41). -/
theorem State.acceptInReady_of_uninit {s : State} (h : s.pos = .uninit) (i : Instr)
    (program : State → List Micro) : s.acceptInReady i program = .refused .beforeInit := by
  simp [State.acceptInReady, h]

/-- A request waits for the one in progress (R41). -/
theorem State.acceptInReady_settle (s : State) (i : Instr) (program : State → List Micro) :
    s.settle.acceptInReady i program = s.acceptInReady i program := by
  rcases s.pos_cases with h | ⟨p, h⟩ | h
  · rw [State.settle_of_uninit h]
  · have hs : s.settle.pos = .ready := by rw [State.settle_of_running h]
    rw [State.acceptInReady_of_ready hs]
    simp only [State.acceptInReady, h, State.settle_start]
    rw [State.performAll_withPos, ← hs]
  · rw [State.settle_of_ready h]

/-- Everything `acceptInReady` can answer. -/
theorem State.acceptInReady_cases (s : State) (i : Instr) (program : State → List Micro) :
    (s.settle.pos = .ready ∧
      s.acceptInReady i program = .next (s.settle.performAll (program s.settle))) ∨
    (s.pos = .uninit ∧ s.acceptInReady i program = .refused .beforeInit) := by
  rcases State.settle_pos s with h | ⟨_, _, h⟩
  · exact .inl ⟨h, by rw [← State.acceptInReady_settle, State.acceptInReady_of_ready h]⟩
  · exact .inr ⟨h, State.acceptInReady_of_uninit h i program⟩

/-- `INIT` in `UNINIT` with a legal line count (R32, R41). -/
theorem State.acceptInUninit_of_uninit {s : State} (h : s.pos = .uninit)
    (hl : Config.linesLegal s.config = true) (program : Config → List Micro) :
    s.acceptInUninit program = .next { s.performAll (program s.config) with pos := .ready } := by
  simp [State.acceptInUninit, h, hl, State.settle_start]

/-- Everything `acceptInUninit` can answer. -/
theorem State.acceptInUninit_cases (s : State) (program : Config → List Micro) :
    (s.pos = .uninit ∧ Config.linesLegal s.config = true ∧
      s.acceptInUninit program = .next { s.performAll (program s.config) with pos := .ready }) ∨
    (s.pos = .uninit ∧ Config.linesLegal s.config = false ∧
      s.acceptInUninit program = .refused .linesOutOfRange) ∨
    (s.pos ≠ .uninit ∧ s.acceptInUninit program = .refused .initTwice) := by
  rcases s.pos_cases with h | ⟨p, h⟩ | h
  · cases hl : Config.linesLegal s.config with
    | true => exact .inl ⟨h, rfl, State.acceptInUninit_of_uninit h hl program⟩
    | false => exact .inr (.inl ⟨h, rfl, by simp [State.acceptInUninit, h, hl]⟩)
  · exact .inr (.inr (by simp [State.acceptInUninit, h]))
  · exact .inr (.inr (by simp [State.acceptInUninit, h]))

/-- Everything `issueCommand` can answer: the command's events, in every phase (41_dispatcher.md R152). -/
theorem State.issueCommand_eq (s : State) (value : Byte) :
    s.issueCommand value = .next (s.emitAll (commandEvents s.bus value)) := rfl

/-- Everything `advance` can answer. -/
theorem State.advance_cases (run : Instr → State → Host.Outcome State Fault Refusal) (s : State) :
    (∃ p, s.pos = .running p ∧ s.advance run = .next (s.tick p)) ∨
    ((∀ p, s.pos ≠ .running p) ∧
      ((∃ i rest, decode s.config.terminator s.inbox = .ok i rest ∧ s.advance run = run i { s with inbox := rest }) ∨
        (decode s.config.terminator s.inbox = .error .incomplete ∧ s.advance run = .next s) ∨
        (∃ b, decode s.config.terminator s.inbox = .error (.reservedOpcode b) ∧
          s.advance run = .refused (.reservedOpcode b)) ∨
        (decode s.config.terminator s.inbox = .error .unterminated ∧ s.advance run = .refused .unterminatedString))) := by
  have idle : s.pos = .uninit ∨ s.pos = .ready ∨ ∃ p, s.pos = .running p := by
    cases s.pos with
    | uninit => exact .inl rfl
    | ready => exact .inr (.inl rfl)
    | running p => exact .inr (.inr ⟨p, rfl⟩)
  rcases idle with h | h | ⟨p, h⟩
  · refine .inr ⟨by simp [h], ?_⟩
    cases hd : decode s.config.terminator s.inbox with
    | ok i rest => exact .inl ⟨i, rest, rfl, by simp [State.advance, h, hd]⟩
    | error e => cases e <;> simp [State.advance, h, hd]
  · refine .inr ⟨by simp [h], ?_⟩
    cases hd : decode s.config.terminator s.inbox with
    | ok i rest => exact .inl ⟨i, rest, rfl, by simp [State.advance, h, hd]⟩
    | error e => cases e <;> simp [State.advance, h, hd]
  · exact .inl ⟨p, h, by simp [State.advance, h]⟩

end Sys2Proof.Machine
end

