-- ==== Sys2Proof/Laws/Programs.lean ====
section
/-! SUPPORT. The shape of every request's event list: it is made of register selections, guards, strobe-low writes
and whole transfers, and of nothing else. Claims about all requests go by induction on that shape. -/

namespace Sys2Proof.Machine

open Sys2Proof.Safety

/-- An event list made of whole pieces of the bus protocol with the parameters `b`: the two framings never mix. -/
inductive Framed (b : BusParams) : List Event → Prop where
  | nil : Framed b []
  | guard (n : Nat) {es : List Event} : Framed b es → Framed b (.delay n :: es)
  | rs (v : Level) {es : List Event} : Framed b es → Framed b (.setLine .rs v :: es)
  | rw {es : List Event} : b.rwWired = true → Framed b es → Framed b (.setLine .rw false :: es)
  | eLow {es : List Event} : Framed b es → Framed b (.setLine .e false :: es)
  | byte (v : Byte) {es : List Event} : b.dl = true → Framed b es → Framed b (drive8 b v ++ es)
  | nibble (n : Byte) {es : List Event} : b.dl = false → Framed b es → Framed b (drive4 b n ++ es)

theorem Framed.append {b : BusParams} {es fs : List Event} (he : Framed b es) (hf : Framed b fs) :
    Framed b (es ++ fs) := by
  induction he with
  | nil => exact hf
  | guard n _ ih => exact .guard n ih
  | rs v _ ih => exact .rs v ih
  | rw h _ ih => exact .rw h ih
  | eLow _ ih => exact .eLow ih
  | byte v h _ ih => rw [List.append_assoc]; exact .byte v h ih
  | nibble n h _ ih => rw [List.append_assoc]; exact .nibble n h ih

theorem framed_nibble (b : BusParams) (n : Byte) (h : b.dl = false) : Framed b (drive4 b n) := by
  simpa using Framed.nibble n h Framed.nil

theorem framed_byte (b : BusParams) (v : Byte) (h : b.dl = true) : Framed b (drive8 b v) := by
  simpa using Framed.byte v h Framed.nil

theorem framed_guard (b : BusParams) (n : Nat) : Framed b [.delay n] := .guard n .nil

theorem framed_selectRegister (b : BusParams) (mode : RegSel) : Framed b (selectRegister b mode) := by
  cases h : b.rwWired with
  | true => simpa [selectRegister, h] using Framed.rs _ (.rw h .nil)
  | false => simpa [selectRegister, h] using Framed.rs _ .nil

/-- A byte transfer is whole (40_bus_transfer.md R136). -/
theorem framed_transferByte (b : BusParams) (v : Byte) (mode : RegSel) : Framed b (transferByte b v mode) := by
  refine (framed_selectRegister b mode).append ?_
  cases h : b.dl with
  | true => simpa using framed_byte b v h
  | false => simpa using (framed_nibble b (highNibble v) h).append (framed_nibble b (lowNibble v) h)

theorem framed_commandEvents (b : BusParams) (v : Byte) : Framed b (commandEvents b v) := framed_transferByte b v .command

theorem framed_writeBytesEvents (b : BusParams) (vs : List Byte) : Framed b (writeBytesEvents b vs) := by
  induction vs with
  | nil => exact .nil
  | cons v vs ih => exact (framed_transferByte b v .data).append ih

/-! ## The flags of `INIT` -/

theorem Byte.or_and (x y z : Byte) : (x ||| y) &&& z = (x &&& z) ||| (y &&& z) := by
  ext i
  simp [Bool.and_or_distrib_right]

/-- Step 1 makes the DL flag the configured width and no later step of `INIT` changes it (90 C10). -/
theorem initFunctionFlags_dl (c : Config) : flagDL c.codes (initFunctionFlags c) = decide (c.bitMode = .bit8) := by
  have h := c.codes.dlApart
  simp only [Bool.and_eq_true, bne_iff_ne, ne_eq, beq_iff_eq] at h
  obtain ⟨h0, h1⟩ := h
  have hb : ∀ x y z w v : Byte, (x ||| y ||| z ||| w ||| v) &&& c.codes.f8Bit = 0x00#8 →
      x &&& c.codes.f8Bit = 0x00#8 ∧ y &&& c.codes.f8Bit = 0x00#8 ∧ z &&& c.codes.f8Bit = 0x00#8 ∧
        w &&& c.codes.f8Bit = 0x00#8 ∧ v &&& c.codes.f8Bit = 0x00#8 := by
    intro x y z w v
    simp only [Byte.or_and, BitVec.or_eq_zero_iff]
    tauto
  obtain ⟨a1, a2, a3, a4, a5⟩ := hb _ _ _ _ _ h1
  unfold flagDL initFunctionFlags functionFlags2 functionFlags1 setFlag
  cases c.bitMode <;> cases Config.severalLines c <;> cases Config.largeFontApplies c <;>
    simp [Byte.or_and, a1, a2, a3, a4, a5, h0]

/-- The flag bits that no code names are 0 in the flags `INIT` writes (10_state.md R22). -/
theorem initFunctionFlags_reserved (c : Config) :
    initFunctionFlags c &&& ~~~functionMask c.codes = 0x00#8 := by
  have hm : ∀ a b d e f g : Byte, ∀ p q : Bool,
      (let x := (a ||| e ||| g); let y := if p then x ||| d else x; if q then y ||| f else y)
        &&& ~~~(a ||| b ||| d ||| e ||| f ||| g) = 0x00#8 ∧
      (let x := (b ||| e ||| g); let y := if p then x ||| d else x; if q then y ||| f else y)
        &&& ~~~(a ||| b ||| d ||| e ||| f ||| g) = 0x00#8 := by
    intro a b d e f g p q
    constructor <;>
    · apply BitVec.eq_of_getLsbD_eq
      intro i hi
      cases p <;> cases q <;> simp [hi] <;> grind
  unfold initFunctionFlags functionFlags2 functionFlags1 functionMask setFlag
  cases c.bitMode
  · exact (hm _ _ _ _ _ _ _ _).2
  · exact (hm _ _ _ _ _ _ _ _).1

theorem initBus_dl (c : Config) : (initBus c).dl = decide (c.bitMode = .bit8) := initFunctionFlags_dl c

/-! ## Every request's event list -/

theorem framed_initForceLow (c : Config) : Framed (initBus c) (initForceLow c) := by
  cases h : c.rwWired with
  | true => simpa [initForceLow, h] using Framed.rs (b := initBus c) false (.eLow (.rw h .nil))
  | false => simpa [initForceLow, h] using Framed.rs (b := initBus c) false (.eLow .nil)

theorem framed_initHandshake (c : Config) : Framed (initBus c) (initHandshake c) := by
  cases h : c.bitMode with
  | bit4 =>
    have hd : (initBus c).dl = false := by simp [initBus_dl, h]
    have hn : ∀ n, Framed (initBus c) (drive4 (initBus c) n) := fun n => framed_nibble _ n hd
    have hg : ∀ n, Framed (initBus c) [.delay n] := framed_guard _
    simpa [initHandshake, h, initHandshake4] using
      ((((((hn handshakeNibble3).append (hg c.timing.tH4_1)).append (hn handshakeNibble3)).append
        (hg c.timing.tH4_2)).append (hn handshakeNibble3)).append (hg c.timing.tH4_3)).append
        (hn handshakeNibble2)
  | bit8 =>
    have hc : ∀ v, Framed (initBus c) (commandEvents (initBus c) v) := framed_commandEvents _
    have hg : ∀ n, Framed (initBus c) [.delay n] := framed_guard _
    simpa [initHandshake, h, initHandshake8] using
      (((hc (initFunctionSet c)).append (hg c.timing.tH8_1)).append
        ((hc (initFunctionSet c)).append (hg c.timing.tH8_2))).append (hc (initFunctionSet c))

/-- The events of `INIT`, step after step (42_init_sequencer.md R160). -/
theorem initProgram_events (c : Config) :
    (initProgram c).map Micro.event =
      initPowerOn c ++ initForceLow c ++ initHandshake c ++ commandEvents (initBus c) (initFunctionSet c)
        ++ commandEvents (initBus c) (composite c.codes.displayControl c.codes.displayOn)
        ++ (commandEvents (initBus c) clearDisplayCode ++ [.delay c.timing.tClear])
        ++ commandEvents (initBus c) (composite c.codes.entryModeSet c.codes.entryLeft) := by
  simp [initProgram, weave_map_event, initSteps, List.append_assoc]

theorem commandEvents_ne_nil (b : BusParams) (v : Byte) : commandEvents b v ≠ [] := by
  intro h
  have := length_transferByte b v .command
  rw [commandEvents] at h
  rw [h] at this
  cases hd : b.dl <;> cases hr : b.rwWired <;> simp [transferEvents, hd, hr] at this

/-- The register writes of `INIT`, step after step (R160). -/
theorem initProgram_writes (c : Config) :
    (initProgram c).flatMap Micro.writes =
      initWrites1 c ++ initWrites2 c ++ initWrites3 c ++ initWrites4 c
        ++ [.displayControlFlags c.codes.displayOn, .entryModeFlags c.codes.entryLeft] := by
  have h := weave_flatMap_writes [] ((initSteps c).dropLast)
    ([.entryModeFlags c.codes.entryLeft], commandEvents (initBus c) (composite c.codes.entryModeSet c.codes.entryLeft))
    (commandEvents_ne_nil _ _)
  simpa [initProgram, initSteps, List.append_assoc] using h

theorem framed_initProgram (c : Config) : Framed (initBus c) ((initProgram c).map Micro.event) := by
  rw [initProgram_events]
  have hc : ∀ v, Framed (initBus c) (commandEvents (initBus c) v) := framed_commandEvents _
  exact ((((((framed_guard _ _).append (framed_initForceLow c)).append (framed_initHandshake c)).append
    (hc _)).append (hc _)).append ((hc _).append (framed_guard _ _))).append (hc _)

/-- The parameters a request's events are framed with: `INIT` frames with the flags it has just written. -/
def busOf (i : Instr) (s : State) : BusParams := if i = .init then initBus s.config else s.bus

/-- Every request's event list is made of whole pieces of the bus protocol. -/
theorem framed_eventsOf (i : Instr) (s : State) : Framed (busOf i s) (eventsOf i s) := by
  have hc : ∀ v, Framed s.bus (commandEvents s.bus v) := framed_commandEvents _
  have hg : ∀ n, Framed s.bus [.delay n] := framed_guard _
  cases i
  case init => simpa [eventsOf, programOf, busOf] using framed_initProgram s.config
  all_goals
    simp only [eventsOf, programOf, busOf, clearProgram, homeProgram, setCursorProgram, displayProgram,
      noDisplayProgram, cursorProgram, noCursorProgram, blinkProgram, noBlinkProgram, scrollLProgram,
      scrollRProgram, ltrProgram, rtlProgram, autoscrollProgram, noAutoscrollProgram, createCharProgram,
      wrStrProgram, cmdProgram, wrbProgram, commandProgram, guardedProgram, displayControlProgram,
      entryModeProgram, segment_map_event, List.map_nil, reduceCtorEq, if_false]
  case clear => exact (hc _).append (hg _)
  case home => exact (hc _).append (hg _)
  case createChar => exact (hc _).append (framed_writeBytesEvents _ _)
  case wrStr => exact framed_writeBytesEvents _ _
  case wrb => exact framed_transferByte _ _ _
  all_goals first | exact hc _ | exact .nil

/-! ## What framed events do to the lines -/

theorem drives_nibbleLine (b : BusParams) (i : Fin 4) : drives b (nibbleLine b.nibbleBase i) = true := by
  have h : (List.finRange 4).any (fun j => nibbleLine b.nibbleBase j == nibbleLine b.nibbleBase i) = true :=
    List.any_eq_true.mpr ⟨i, List.mem_finRange i, beq_self_eq_true _⟩
  cases hb : b.nibbleBase with
  | base0 => rw [hb] at h; simp only [nibbleLine] at h ⊢; simp only [drives, hb, nibbleLine, h, Bool.or_true]
  | base4 => rw [hb] at h; simp only [nibbleLine] at h ⊢; simp only [drives, hb, nibbleLine, h, Bool.or_true]

/-- Framed events leave every line the bus does not drive (20_memory.md R61). -/
theorem Framed.undriven {b : BusParams} {es : List Event} (h : Framed b es) {l : Line}
    (hl : drives b l = false) (ls : Lines) : levelOf (linesAfter ls es) l = levelOf ls l := by
  induction h generalizing ls with
  | nil => rfl
  | guard n _ ih => rw [linesAfter_cons, ih]; rfl
  | rs v _ ih =>
    rw [linesAfter_cons, ih]
    exact levelOf_set_ne ls v (by rintro rfl; simp [drives] at hl)
  | rw hw _ ih =>
    rw [linesAfter_cons, ih]
    exact levelOf_set_ne ls false (by rintro rfl; simp [drives, hw] at hl)
  | eLow _ ih =>
    rw [linesAfter_cons, ih]
    exact levelOf_set_ne ls false (by rintro rfl; simp [drives] at hl)
  | byte v hd _ ih =>
    rw [linesAfter_append, ih, levelOf_drive8]
    cases l <;> simp_all [drives]
  | nibble n hd _ ih =>
    rw [linesAfter_append, ih]
    refine levelOf_drive4_other b n ls (by rintro rfl; simp [drives] at hl) ?_
    intro i hi
    have := drives_nibbleLine b i
    rw [hi, hl] at this
    exact absurd this (by simp)

/-- Framed events begun with `E` low end with `E` low (40_bus_transfer.md R138). -/
theorem Framed.e_low {b : BusParams} {es : List Event} (h : Framed b es) {ls : Lines}
    (hE : levelOf ls .e = false) : levelOf (linesAfter ls es) .e = false := by
  induction h generalizing ls with
  | nil => exact hE
  | guard n _ ih => exact ih hE
  | rs v _ ih => exact ih (by rw [levelOf_set_ne _ _ (by simp)]; exact hE)
  | rw _ _ ih => exact ih (by rw [levelOf_set_ne _ _ (by simp)]; exact hE)
  | eLow _ ih => exact ih (by simp)
  | byte v _ _ ih => rw [linesAfter_append]; exact ih (levelOf_drive8 ..)
  | nibble n _ _ ih => rw [linesAfter_append]; exact ih (levelOf_drive4_e ..)

/-- Framed events never raise `RW` (40_bus_transfer.md R135). -/
theorem Framed.rw_low {b : BusParams} {es : List Event} (h : Framed b es) {ls : Lines}
    (hr : levelOf ls .rw = false) : levelOf (linesAfter ls es) .rw = false := by
  induction h generalizing ls with
  | nil => exact hr
  | guard n _ ih => exact ih hr
  | rs v _ ih => exact ih (by rw [levelOf_set_ne _ _ (by simp)]; exact hr)
  | rw _ _ ih => exact ih (by simp)
  | eLow _ ih => exact ih (by rw [levelOf_set_ne _ _ (by simp)]; exact hr)
  | byte v _ _ ih => rw [linesAfter_append]; exact ih (by rw [levelOf_drive8]; exact hr)
  | nibble n _ _ ih =>
    rw [linesAfter_append]
    exact ih (by rw [levelOf_drive4_other b n ls (by simp) (by cases b.nibbleBase <;> simp [nibbleLine])]; exact hr)

/-- The lines that a bus with the configured width and wiring drives are the lines whose events are allowed. -/
theorem eventAllowed_eq_drives (c : Config) (b : BusParams) (hd : b.dl = decide (c.bitMode = .bit8))
    (hw : b.rwWired = c.rwWired) (hb : b.nibbleBase = c.nibbleBase) (l : Line) (v : Level) :
    eventAllowed c (.setLine l v) = drives b l := by
  cases l <;> simp [eventAllowed, drives, hd, hw, hb]

/-- Framed events only write lines the bus drives. -/
theorem Framed.drives_of_mem {b : BusParams} {es : List Event} (h : Framed b es) {l : Line} {v : Level}
    (hm : Event.setLine l v ∈ es) : drives b l = true := by
  induction h with
  | nil => simp at hm
  | guard n _ ih => simp at hm; exact ih hm
  | rs w _ ih =>
    simp at hm
    rcases hm with ⟨rfl, _⟩ | hm
    · rfl
    · exact ih hm
  | rw hw _ ih =>
    simp at hm
    rcases hm with ⟨rfl, _⟩ | hm
    · exact hw
    · exact ih hm
  | eLow _ ih =>
    simp at hm
    rcases hm with ⟨rfl, _⟩ | hm
    · rfl
    · exact ih hm
  | byte w hd _ ih =>
    rcases List.mem_append.mp hm with hm | hm
    · cases l <;> simp_all [drives, drive8, pulseStrobe]
    · exact ih hm
  | nibble n hd _ ih =>
    rcases List.mem_append.mp hm with hm | hm
    · simp only [drive4, pulseStrobe, List.cons_append, List.nil_append, List.mem_cons, Event.setLine.injEq,
        reduceCtorEq, false_or, List.not_mem_nil, or_false] at hm
      rcases hm with ⟨rfl, _⟩ | ⟨rfl, _⟩ | ⟨rfl, _⟩ | ⟨rfl, _⟩ | ⟨rfl, _⟩ | ⟨rfl, _⟩ | ⟨rfl, _⟩ <;>
        first | exact drives_nibbleLine b _ | rfl
    · exact ih hm

end Sys2Proof.Machine
end

