-- ==== Sys2Proof/Laws/Exec.lean ====
section
/-! SUPPORT. What `exec` and `step` can answer, said once for all instructions; every invariant and frame is derived
from these instead of from each meaning. -/

namespace Sys2Proof.Machine

/-- Every request but `INIT` goes through the one acceptance rule with its own micro-steps (10_state.md R41). -/
theorem exec_request {i : Instr} (hr : i.isRequest = true) (hi : i ≠ .init) (s : State) :
    exec i s = s.acceptInReady i (programOf i) := by
  cases i <;> first | rfl | exact absurd rfl hi | exact Bool.noConfusion hr

/-- A request but `INIT` that answers a next state: the block had settled in `READY`, and the request ran there. -/
theorem exec_request_next {i : Instr} {s t : State} (hr : i.isRequest = true) (hi : i ≠ .init)
    (h : exec i s = .next t) :
    s.settle.pos = .ready ∧ t = s.settle.performAll (programOf i s.settle) := by
  rw [exec_request hr hi] at h
  rcases State.acceptInReady_cases s i (programOf i) with ⟨hp, he⟩ | ⟨_, he⟩
  · rw [he] at h
    exact ⟨hp, (Host.Outcome.next.inj h).symm⟩
  · rw [he] at h
    exact absurd h (by simp)

/-- The same where no request is in progress. -/
theorem exec_request_idle {i : Instr} {s t : State} (hr : i.isRequest = true) (hi : i ≠ .init)
    (hn : ∀ p, s.pos ≠ .running p) (h : exec i s = .next t) :
    s.pos = .ready ∧ t = s.performAll (programOf i s) := by
  obtain ⟨h1, h2⟩ := exec_request_next hr hi h
  rcases s.pos_cases with hs | ⟨p, hs⟩ | hs
  · rw [State.settle_of_uninit hs, hs] at h1
    exact absurd h1 (by simp)
  · exact absurd hs (hn p)
  · rw [State.settle_of_ready hs] at h2
    exact ⟨hs, h2⟩

/-- `INIT` that answers a next state: the phase was `UNINIT` and `lines` legal, and the eleven steps ran. -/
theorem exec_init_next {s t : State} (h : exec .init s = .next t) :
    s.pos = .uninit ∧ Config.linesLegal s.config = true ∧
      t = { s.performAll (initProgram s.config) with pos := .ready } := by
  have h' : s.acceptInUninit initProgram = .next t := h
  rcases State.acceptInUninit_cases s initProgram with ⟨hp, hl, he⟩ | ⟨_, _, he⟩ | ⟨_, he⟩
  · rw [he] at h'
    exact ⟨hp, hl, (Host.Outcome.next.inj h').symm⟩
  · rw [he] at h'
    exact absurd h' (by simp)
  · rw [he] at h'
    exact absurd h' (by simp)

/-- A bus row that answers a next state has emitted framed events and done nothing else (41_dispatcher.md R152). -/
theorem exec_busRow_next {i : Instr} {s t : State} (hr : i.isRequest = false) (h : exec i s = .next t) :
    ∃ es, t = s.emitAll es ∧
      ((∃ v, es = commandEvents s.bus v) ∨ es = drive4 s.bus handshakeNibble3 ∨
        es = drive4 s.bus handshakeNibble2) := by
  have cmd : ∀ v, s.issueCommand v = .next t →
      ∃ es, t = s.emitAll es ∧
        ((∃ v, es = commandEvents s.bus v) ∨ es = drive4 s.bus handshakeNibble3 ∨
          es = drive4 s.bus handshakeNibble2) := by
    intro v hv
    rw [State.issueCommand_eq] at hv
    exact ⟨_, (Host.Outcome.next.inj hv).symm, .inl ⟨v, rfl⟩⟩
  cases i
  case handshake3 => exact ⟨_, (Host.Outcome.next.inj h).symm, .inr (.inl rfl)⟩
  case handshake2 => exact ⟨_, (Host.Outcome.next.inj h).symm, .inr (.inr rfl)⟩
  all_goals first | exact Bool.noConfusion hr | exact cmd _ h

/-! ## The registers `INIT` writes -/

/-- The row-offset table as `INIT` step 3 writes it (42_init_sequencer.md R163). -/
theorem State.writeAll_initWrites3 (s : State) (c : Config) :
    s.writeAll (initWrites3 c)
      = { s with rowOffsets := #v[0x00#8, 0x40#8, 0x00#8 + c.columns, 0x40#8 + c.columns] } := by
  have h : ∀ (v : Vector Byte 4) (a b d e : Byte),
      (((v.set 0 a).set 1 b).set 2 d).set 3 e = #v[a, b, d, e] := by
    intro v a b d e
    ext i hi
    have hc : i = 0 ∨ i = 1 ∨ i = 2 ∨ i = 3 := by omega
    rcases hc with rfl | rfl | rfl | rfl <;> simp
  rw [← h s.rowOffsets]
  rfl

/-- Every register as `INIT` leaves it, and its events (42_init_sequencer.md R160). -/
theorem State.performAll_initProgram (s : State) :
    s.performAll (initProgram s.config) =
      ({ s with
        functionFlags := initFunctionFlags s.config
        displayControlFlags := s.config.codes.displayOn
        entryModeFlags := s.config.codes.entryLeft
        lineCount := s.config.lines
        rowOffsets := #v[0x00#8, 0x40#8, 0x00#8 + s.config.columns, 0x40#8 + s.config.columns] } : State).emitAll
          ((initProgram s.config).map Micro.event) := by
  rw [State.performAll_eq, initProgram_writes]
  refine congrArg (fun u : State => u.emitAll _) ?_
  simp only [State.writeAll_append, State.writeAll_initWrites3]
  cases h1 : Config.severalLines s.config <;> cases h2 : Config.largeFontApplies s.config <;>
    simp [initWrites1, initWrites2, initWrites4, h1, h2, State.writeAll, State.write, initFunctionFlags,
      functionFlags2]

/-- The micro-steps of a display-control request write `displayControlFlags` and no other register (10_state.md
R28). -/
theorem writes_displayControl {i : Instr} (h : Safety.writesDisplayControl i = true) (s : State) :
    ∃ v, (programOf i s).flatMap Micro.writes = [.displayControlFlags v] ∧
      v &&& ~~~displayMask s.config.codes = s.displayControlFlags &&& ~~~displayMask s.config.codes := by
  have hs : ∀ v, (displayControlProgram v s).flatMap Micro.writes = [.displayControlFlags v] := fun v =>
    segment_flatMap_writes _ (commandEvents_ne_nil _ _)
  cases i <;> first | exact Bool.noConfusion h | exact ⟨_, hs _, by
    apply BitVec.eq_of_getLsbD_eq
    intro j hj
    simp only [setFlag, clearFlag, displayMask, BitVec.getLsbD_and, BitVec.getLsbD_or, BitVec.getLsbD_not, hj]
    grind⟩

/-- The micro-steps of an entry-mode request write `entryModeFlags` and no other register (R28). -/
theorem writes_entryMode {i : Instr} (h : Safety.writesEntryMode i = true) (s : State) :
    ∃ v, (programOf i s).flatMap Micro.writes = [.entryModeFlags v] ∧
      v &&& ~~~entryMask s.config.codes = s.entryModeFlags &&& ~~~entryMask s.config.codes := by
  have hs : ∀ v, (entryModeProgram v s).flatMap Micro.writes = [.entryModeFlags v] := fun v =>
    segment_flatMap_writes _ (commandEvents_ne_nil _ _)
  cases i <;> first | exact Bool.noConfusion h | exact ⟨_, hs _, by
    apply BitVec.eq_of_getLsbD_eq
    intro j hj
    simp only [setFlag, clearFlag, entryMask, BitVec.getLsbD_and, BitVec.getLsbD_or, BitVec.getLsbD_not, hj]
    grind⟩

/-- The micro-steps of every other request but `INIT` write no register (R28). -/
theorem writes_none {i : Instr} (hi : i ≠ .init) (hd : Safety.writesDisplayControl i = false)
    (he : Safety.writesEntryMode i = false) (s : State) : (programOf i s).flatMap Micro.writes = [] := by
  cases i <;> first
    | exact absurd rfl hi
    | exact Bool.noConfusion hd
    | exact Bool.noConfusion he
    | rfl
    | simp only [programOf, clearProgram, homeProgram, setCursorProgram, scrollLProgram, scrollRProgram,
        createCharProgram, wrStrProgram, cmdProgram, wrbProgram, commandProgram, guardedProgram,
        segment_nil_flatMap_writes]

/-- The micro-steps of a request do not depend on the levels of the lines (10_state.md R35). -/
theorem programOf_withLines (i : Instr) (s : State) (ls : Lines) :
    programOf i { s with lines := ls } = programOf i s := by
  cases i <;> rfl

/-- Every instruction falls under one of the four access classes of R28. -/
theorem access_class (i : Instr) :
    i = .init ∨ Safety.writesDisplayControl i = true ∨ Safety.writesEntryMode i = true ∨
      (i ≠ .init ∧ Safety.writesDisplayControl i = false ∧ Safety.writesEntryMode i = false) := by
  cases i <;> simp [Safety.writesDisplayControl, Safety.writesEntryMode]

end Sys2Proof.Machine
end

