-- ==== Sys2Proof/Laws/PerInstr.lean ====
section
/-! SUPPORT. Statements about every instruction, one lemma per constructor. -/

/-! ## EncodedLength: how many bytes an instruction's encoding has (30_encoding.md R92) -/

/-- The length of the encoding by format: Z 1, B1 2, B2 3, B9 10, S `n + 2` (R92); a bus row is one byte (R109). -/
def Sys2Proof.Laws.EncodedLength.formatLength : Sys2Proof.Instr → Nat
  | .setCursor _ _ => 3
  | .createChar _ _ => 10
  | .wrStr text => text.length + 2
  | .cmd _ => 2
  | .wrb _ => 2
  | .init | .clear | .home | .noDisplay | .display | .noCursor | .cursor | .noBlink | .blink
  | .scrollL | .scrollR | .ltr | .rtl | .autoscroll | .noAutoscroll => 1
  | .clearDisplay | .returnHome | .entryModeSet _ _ | .displayControl _ _ _ | .cursorShift _
  | .functionSet _ _ _ | .setCgramAddr _ | .setDdramAddr _ | .handshake3 | .handshake2 => 1

/-- The encoding of `i` has the length of its format, whatever the terminator. -/
def Sys2Proof.Laws.EncodedLength.Statement (i : Sys2Proof.Instr) : Prop :=
  ∀ terminator : Sys2Proof.Byte, (Sys2Proof.encode terminator i).length = Sys2Proof.Laws.EncodedLength.formatLength i

theorem Sys2Proof.Laws.EncodedLength.init :
    Sys2Proof.Laws.EncodedLength.Statement .init := fun _ => rfl

theorem Sys2Proof.Laws.EncodedLength.clear :
    Sys2Proof.Laws.EncodedLength.Statement .clear := fun _ => rfl

theorem Sys2Proof.Laws.EncodedLength.home :
    Sys2Proof.Laws.EncodedLength.Statement .home := fun _ => rfl

theorem Sys2Proof.Laws.EncodedLength.setCursor (col row : Sys2Proof.Byte) :
    Sys2Proof.Laws.EncodedLength.Statement (.setCursor col row) := fun _ => rfl

theorem Sys2Proof.Laws.EncodedLength.noDisplay :
    Sys2Proof.Laws.EncodedLength.Statement .noDisplay := fun _ => rfl

theorem Sys2Proof.Laws.EncodedLength.display :
    Sys2Proof.Laws.EncodedLength.Statement .display := fun _ => rfl

theorem Sys2Proof.Laws.EncodedLength.noCursor :
    Sys2Proof.Laws.EncodedLength.Statement .noCursor := fun _ => rfl

theorem Sys2Proof.Laws.EncodedLength.cursor :
    Sys2Proof.Laws.EncodedLength.Statement .cursor := fun _ => rfl

theorem Sys2Proof.Laws.EncodedLength.noBlink :
    Sys2Proof.Laws.EncodedLength.Statement .noBlink := fun _ => rfl

theorem Sys2Proof.Laws.EncodedLength.blink :
    Sys2Proof.Laws.EncodedLength.Statement .blink := fun _ => rfl

theorem Sys2Proof.Laws.EncodedLength.scrollL :
    Sys2Proof.Laws.EncodedLength.Statement .scrollL := fun _ => rfl

theorem Sys2Proof.Laws.EncodedLength.scrollR :
    Sys2Proof.Laws.EncodedLength.Statement .scrollR := fun _ => rfl

theorem Sys2Proof.Laws.EncodedLength.ltr :
    Sys2Proof.Laws.EncodedLength.Statement .ltr := fun _ => rfl

theorem Sys2Proof.Laws.EncodedLength.rtl :
    Sys2Proof.Laws.EncodedLength.Statement .rtl := fun _ => rfl

theorem Sys2Proof.Laws.EncodedLength.autoscroll :
    Sys2Proof.Laws.EncodedLength.Statement .autoscroll := fun _ => rfl

theorem Sys2Proof.Laws.EncodedLength.noAutoscroll :
    Sys2Proof.Laws.EncodedLength.Statement .noAutoscroll := fun _ => rfl

theorem Sys2Proof.Laws.EncodedLength.createChar (slot : Sys2Proof.Byte) (glyph : Vector Sys2Proof.Byte 8) :
    Sys2Proof.Laws.EncodedLength.Statement (.createChar slot glyph) := by
  simp [Sys2Proof.Laws.EncodedLength.Statement, Sys2Proof.encode, Sys2Proof.Laws.EncodedLength.formatLength]

theorem Sys2Proof.Laws.EncodedLength.wrStr (text : List Sys2Proof.Byte) :
    Sys2Proof.Laws.EncodedLength.Statement (.wrStr text) := by
  simp [Sys2Proof.Laws.EncodedLength.Statement, Sys2Proof.encode, Sys2Proof.Laws.EncodedLength.formatLength]

theorem Sys2Proof.Laws.EncodedLength.cmd (value : Sys2Proof.Byte) :
    Sys2Proof.Laws.EncodedLength.Statement (.cmd value) := fun _ => rfl

theorem Sys2Proof.Laws.EncodedLength.wrb (value : Sys2Proof.Byte) :
    Sys2Proof.Laws.EncodedLength.Statement (.wrb value) := fun _ => rfl

theorem Sys2Proof.Laws.EncodedLength.clearDisplay :
    Sys2Proof.Laws.EncodedLength.Statement .clearDisplay := fun _ => rfl

theorem Sys2Proof.Laws.EncodedLength.returnHome :
    Sys2Proof.Laws.EncodedLength.Statement .returnHome := fun _ => rfl

theorem Sys2Proof.Laws.EncodedLength.entryModeSet (entryLeft shiftInc : Bool) :
    Sys2Proof.Laws.EncodedLength.Statement (.entryModeSet entryLeft shiftInc) := fun _ => rfl

theorem Sys2Proof.Laws.EncodedLength.displayControl (d c b : Bool) :
    Sys2Proof.Laws.EncodedLength.Statement (.displayControl d c b) := fun _ => rfl

theorem Sys2Proof.Laws.EncodedLength.cursorShift (right : Bool) :
    Sys2Proof.Laws.EncodedLength.Statement (.cursorShift right) := fun _ => rfl

theorem Sys2Proof.Laws.EncodedLength.functionSet (dl twoLine large : Bool) :
    Sys2Proof.Laws.EncodedLength.Statement (.functionSet dl twoLine large) := fun _ => rfl

theorem Sys2Proof.Laws.EncodedLength.setCgramAddr (slot : BitVec 3) :
    Sys2Proof.Laws.EncodedLength.Statement (.setCgramAddr slot) := fun _ => rfl

theorem Sys2Proof.Laws.EncodedLength.setDdramAddr (addr : BitVec 7) :
    Sys2Proof.Laws.EncodedLength.Statement (.setDdramAddr addr) := fun _ => rfl

theorem Sys2Proof.Laws.EncodedLength.handshake3 :
    Sys2Proof.Laws.EncodedLength.Statement .handshake3 := fun _ => rfl

theorem Sys2Proof.Laws.EncodedLength.handshake2 :
    Sys2Proof.Laws.EncodedLength.Statement .handshake2 := fun _ => rfl
end

