-- ==== Sys2Proof/Tests/Slice0.lean ====
section
/-! SUPPORT. Tests whose expected results come from the spec (spec/95_test_vectors.md, the tables of 30_encoding.md),
and for each statement with hypotheses a witness: a concrete state and operands that meet all of them together. -/

namespace Sys2Proof.Tests

-- one theorem checked after another: the kernel's threads do not pile up
set_option Elab.async false

open Sys2Proof Sys2Proof.Machine Sys2Proof.Safety

/-! ## Small states -/

/-- A configuration with the source's timing and the numbers of the spec. -/
def mkConfig (bitMode : BitMode) (columns lines : Byte) (font : Font) (rwWired : Bool) (base : NibbleBase) : Config :=
  ⟨bitMode, columns, lines, font, rwWired, base, sourceTiming, hd44780Codes, nulTerminator⟩

/-- `READY` with the registers the vectors give after `INIT`, 4-bit 16x2 with `RW` wired (V10). -/
def ready4 : State :=
  { State.reset with
    functionFlags := 0x08#8
    displayControlFlags := 0x04#8
    entryModeFlags := 0x02#8
    lineCount := 2#8
    rowOffsets := #v[0x00#8, 0x40#8, 0x10#8, 0x50#8]
    pos := .ready }

/-- `READY`, 8-bit with four rows of 20 and no `RW` line (V12, program P2). -/
def ready8 : State :=
  { State.create (mkConfig .bit8 20#8 4#8 .default false .base0) with
    functionFlags := 0x18#8
    displayControlFlags := 0x04#8
    entryModeFlags := 0x02#8
    lineCount := 4#8
    rowOffsets := #v[0x00#8, 0x40#8, 0x14#8, 0x54#8]
    pos := .ready }

/-- The state an outcome answers, or the state itself where it stops. -/
def stateOr (s : State) : Host.Outcome State Fault Refusal → State
  | .next t => t
  | .fault _ => s
  | .refused _ => s

/-- `s` after an instruction. -/
def after (i : Instr) (s : State) : State := stateOr s (exec i s)

/-- The bytes an instruction adds to what the bus has carried, from a state with an empty trace. -/
def sentBy (i : Instr) (s : State) : List (Level × Byte) := sentBytes s.bus s.lines (after i s).trace

/-- A command in progress in `ready8`, its first two events still to come. -/
def runningState : State :=
  { ready8 with pos := .running ⟨.display, 3, [⟨[.displayControlFlags 0x04#8], .setLine .rs false⟩, ⟨[], .delay 1⟩]⟩ }

/-! ## Well-formedness -/

theorem test_wf_refuses_terminator_in_text : (Instr.wrStr [0x48#8, 0x00#8, 0x69#8]).wellFormed 0x00#8 = false := by decide
theorem test_wf_accepts_text : (Instr.wrStr [0x80#8, 0xFF#8, 0x01#8]).wellFormed 0x00#8 = true := by decide

/-! ## Decoding: a word of each row written out from the tables of R91 and R109 -/

theorem test_decode_init : decode 0x00#8 [0b00000000#8, 0xEE#8] = .ok .init [0xEE#8] := by decide
theorem test_decode_clear : decode 0x00#8 [0b00000001#8, 0xEE#8] = .ok .clear [0xEE#8] := by decide
theorem test_decode_home : decode 0x00#8 [0b00000010#8] = .ok .home [] := by decide
theorem test_decode_setCursor : decode 0x00#8 [0b00000011#8, 3#8, 2#8] = .ok (.setCursor 3#8 2#8) [] := by decide
theorem test_decode_noDisplay : decode 0x00#8 [0b00000100#8] = .ok .noDisplay [] := by decide
theorem test_decode_display : decode 0x00#8 [0b00000101#8] = .ok .display [] := by decide
theorem test_decode_noCursor : decode 0x00#8 [0b00000110#8] = .ok .noCursor [] := by decide
theorem test_decode_cursor : decode 0x00#8 [0b00000111#8] = .ok .cursor [] := by decide
theorem test_decode_noBlink : decode 0x00#8 [0b00001000#8] = .ok .noBlink [] := by decide
theorem test_decode_blink : decode 0x00#8 [0b00001001#8] = .ok .blink [] := by decide
theorem test_decode_scrollL : decode 0x00#8 [0b00001010#8] = .ok .scrollL [] := by decide
theorem test_decode_scrollR : decode 0x00#8 [0b00001011#8] = .ok .scrollR [] := by decide
theorem test_decode_ltr : decode 0x00#8 [0b00001100#8] = .ok .ltr [] := by decide
theorem test_decode_rtl : decode 0x00#8 [0b00001101#8] = .ok .rtl [] := by decide
theorem test_decode_autoscroll : decode 0x00#8 [0b00001110#8] = .ok .autoscroll [] := by decide
theorem test_decode_noAutoscroll : decode 0x00#8 [0b00001111#8] = .ok .noAutoscroll [] := by decide
theorem test_decode_createChar :
    decode 0x00#8 [0b00010000#8, 8#8, 0x04#8, 0x0E#8, 0x0E#8, 0x0E#8, 0x1F#8, 0x00#8, 0x04#8, 0x00#8, 0xEE#8]
      = .ok (.createChar 8#8 #v[0x04#8, 0x0E#8, 0x0E#8, 0x0E#8, 0x1F#8, 0x00#8, 0x04#8, 0x00#8]) [0xEE#8] := by
  decide
theorem test_decode_wrStr : decode 0x00#8 [0b00010001#8, 0x48#8, 0x69#8, 0x00#8, 0x41#8]
    = .ok (.wrStr [0x48#8, 0x69#8]) [0x41#8] := by decide
theorem test_decode_cmd : decode 0x00#8 [0b00010010#8, 0x00#8] = .ok (.cmd 0x00#8) [] := by decide
theorem test_decode_wrb : decode 0x00#8 [0b00010011#8, 0x41#8] = .ok (.wrb 0x41#8) [] := by decide
theorem test_decode_reserved : decode 0x00#8 [0b00010100#8] = .error (.reservedOpcode 0x14#8) := by decide
theorem test_decode_reserved_top : decode 0x00#8 [0xFF#8, 0x00#8] = .error (.reservedOpcode 0xFF#8) := by decide
theorem test_decode_incomplete : decode 0x00#8 [0x03#8, 0x05#8] = .error .incomplete := by decide
theorem test_decode_unterminated : decode 0x00#8 [0x11#8, 0x48#8] = .error .unterminated := by decide

theorem test_decode_clearDisplay : decodeBus 0b00000001#8 = some .clearDisplay := by decide
theorem test_decode_returnHome : decodeBus 0b00000010#8 = some .returnHome := by decide
theorem test_decode_entryModeSet : decodeBus 0b00000110#8 = some (.entryModeSet true false) := by decide
theorem test_decode_displayControl : decodeBus 0b00001011#8 = some (.displayControl false true true) := by decide
theorem test_decode_cursorShift : decodeBus 0b00011000#8 = some (.cursorShift false) := by decide
theorem test_decode_functionSet : decodeBus 0b00110100#8 = some (.functionSet true false true) := by decide
theorem test_decode_setCgramAddr : decodeBus 0b01101000#8 = some (.setCgramAddr 5#3) := by decide
theorem test_decode_setDdramAddr : decodeBus 0b11000011#8 = some (.setDdramAddr 0x43#7) := by decide
theorem test_decode_handshake3 : decodeNibble 0b0011#4 = some .handshake3 := by decide
theorem test_decode_handshake2 : decodeNibble 0b0010#4 = some .handshake2 := by decide
theorem test_decode_bus_never_emitted : decodeBus 0x00#8 = none ∧ decodeBus 0x03#8 = none ∧ decodeBus 0x10#8 = none := by
  decide

/-! ## The host's two questions: table words, and the first step after reset -/

theorem test_table_word_setCursor : decodeTableWord 24 0x020303 = some (.setCursor 3#8 2#8) := by decide
theorem test_table_word_cursorShift : decodeTableWord 8 0x1C = some (.cursorShift true) := by decide
theorem test_fetch_word_init :
    step (State.reset.withFetchWord 8 0x00) = exec .init State.reset := rfl
theorem test_fetch_word_ltr :
    (stateOr State.reset (step (State.reset.withFetchWord 8 0x0C))).entryModeFlags = 0x02#8 := by decide +kernel
/-- A byte that is only a bus command runs as `CMD` of it (41_dispatcher.md R152; log entry 12). -/
theorem test_fetch_word_bus_command :
    (State.reset.withFetchWord 8 0x80).inbox = [0x12#8, 0x80#8] ∧
      step (State.reset.withFetchWord 8 0x80) = exec (.cmd 0x80#8) { State.reset with pos := .ready } :=
  ⟨by decide, rfl⟩

/-! ## Bus Transfer: vectors V1 to V7 -/

/-- V1. -/
theorem test_pulseStrobe : pulseStrobe sourceTiming =
    [.setLine .e false, .delay 1, .setLine .e true, .delay 1, .setLine .e false, .delay 100] := by decide

/-- V2, `0xA5`. -/
theorem test_drive8 : (drive8 ready8.bus 0xA5#8).take 8 =
    [.setLine (.d 0) true, .setLine (.d 1) false, .setLine (.d 2) true, .setLine (.d 3) false,
      .setLine (.d 4) false, .setLine (.d 5) true, .setLine (.d 6) false, .setLine (.d 7) true] := by decide

/-- V3, `0x48`: the upper bits are ignored. -/
theorem test_drive4 : (drive4 ready4.bus 0x48#8).take 4 =
    [.setLine (.d 0) false, .setLine (.d 1) false, .setLine (.d 2) false, .setLine (.d 3) true] := by decide

/-- V4: with `NIBBLE_BASE = 4` the nibble stands on `D4` to `D7`. -/
theorem test_drive4_base4 : (drive4 ⟨false, false, .base4, sourceTiming⟩ 0x03#8).take 4 =
    [.setLine (.d 4) true, .setLine (.d 5) true, .setLine (.d 6) false, .setLine (.d 7) false] := by decide

/-- V7. -/
theorem test_transferByte_4bit : transferByte ready4.bus 0x48#8 .data =
    [.setLine .rs true, .setLine .rw false,
      .setLine (.d 0) false, .setLine (.d 1) false, .setLine (.d 2) true, .setLine (.d 3) false,
      .setLine .e false, .delay 1, .setLine .e true, .delay 1, .setLine .e false, .delay 100,
      .setLine (.d 0) false, .setLine (.d 1) false, .setLine (.d 2) false, .setLine (.d 3) true,
      .setLine .e false, .delay 1, .setLine .e true, .delay 1, .setLine .e false, .delay 100] := by decide

/-- V6, `0x38` in 8-bit mode without `RW`: one latched word, 15 events, 102 µs. -/
theorem test_transferByte_8bit :
    latchedWords ready8.bus ready8.lines (transferByte ready8.bus 0x38#8 .command) = [⟨false, none, .byte 0x38#8⟩] ∧
      (transferByte ready8.bus 0x38#8 .command).length = 15 ∧
      minDuration (transferByte ready8.bus 0x38#8 .command) = 102 := by decide +kernel

/-! ## INIT: vectors V10 to V14 -/

/-- The registers and the phase of a state. -/
def registers (s : State) : List Byte × Vector Byte 4 × Phase :=
  ([s.functionFlags, s.displayControlFlags, s.entryModeFlags, s.lineCount], s.rowOffsets, s.phase)

/-- V10: the registers and the phase. -/
theorem test_init_registers : registers (after .init State.reset) =
    ([0x08#8, 0x04#8, 0x02#8, 2#8], #v[0x00#8, 0x40#8, 0x10#8, 0x50#8], .ready) := by decide +kernel

/-- V10: the latched nibbles, all with `RS` low. -/
theorem test_init_latched4 :
    (latchedWords (initBus sourceConfig) State.reset.lines (eventsOf .init State.reset)).map Latched.data =
      [.nibble 0x3#4, .nibble 0x3#4, .nibble 0x3#4, .nibble 0x2#4, .nibble 0x2#4, .nibble 0x8#4, .nibble 0x0#4,
        .nibble 0xC#4, .nibble 0x0#4, .nibble 0x1#4, .nibble 0x0#4, .nibble 0x6#4] := by decide +kernel

/-- V10: steps 5 and 6 and the first handshake nibble. -/
theorem test_init_first_events : (eventsOf .init State.reset).take 15 =
    [.delay 50000, .setLine .rs false, .setLine .e false, .setLine .rw false,
      .setLine (.d 0) true, .setLine (.d 1) true, .setLine (.d 2) false, .setLine (.d 3) false,
      .setLine .e false, .delay 1, .setLine .e true, .delay 1, .setLine .e false, .delay 100,
      .delay 4500] := by decide +kernel

/-- V13: the number of events and the minimum duration of `INIT`. -/
def initSize (c : Config) : Nat × Nat :=
  ((eventsOf .init (State.create c)).length, minDuration (eventsOf .init (State.create c)))

/-- V13: sizes in the four wirings. -/
theorem test_init_sizes :
    initSize (mkConfig .bit4 16#8 2#8 .default true .base0) = (136, 62374) ∧
    initSize (mkConfig .bit4 16#8 2#8 .default false .base4) = (131, 62374) ∧
    initSize (mkConfig .bit8 16#8 2#8 .default true .base0) = (119, 57364) ∧
    initSize (mkConfig .bit8 20#8 4#8 .large false .base0) = (111, 57364) := by decide +kernel

/-- V11 and program P4: the bytes an 8-bit `INIT` sends. -/
theorem test_init_bytes8 :
    sentBytes (initBus (mkConfig .bit8 16#8 1#8 .large true .base0)) State.reset.lines
      (eventsOf .init (State.create (mkConfig .bit8 16#8 1#8 .large true .base0))) =
      [(false, 0x34#8), (false, 0x34#8), (false, 0x34#8), (false, 0x34#8), (false, 0x0C#8), (false, 0x01#8),
        (false, 0x06#8)] := by decide +kernel

/-- V12: flags and row offsets of other configurations. -/
theorem test_init_flags :
    initFunctionFlags (mkConfig .bit4 16#8 1#8 .default true .base0) = 0x00#8 ∧
    initFunctionFlags (mkConfig .bit4 16#8 1#8 .large true .base0) = 0x04#8 ∧
    initFunctionFlags (mkConfig .bit4 16#8 2#8 .large true .base0) = 0x08#8 ∧
    initFunctionFlags (mkConfig .bit8 16#8 1#8 .default true .base0) = 0x10#8 ∧
    initFunctionFlags (mkConfig .bit8 16#8 1#8 .large true .base0) = 0x14#8 ∧
    initFunctionFlags (mkConfig .bit8 20#8 4#8 .large true .base0) = 0x18#8 := by decide
theorem test_init_rowOffsets_wrap :
    (after .init (State.create (mkConfig .bit8 200#8 2#8 .default true .base0))).rowOffsets
      = #v[0x00#8, 0x40#8, 0xC8#8, 0x08#8] := by decide +kernel

/-- V14: refusals. -/
theorem test_init_refusals :
    exec .init (State.create (mkConfig .bit4 16#8 0#8 .default true .base0)) = .refused .linesOutOfRange ∧
    exec .init (State.create (mkConfig .bit4 16#8 5#8 .default true .base0)) = .refused .linesOutOfRange ∧
    exec .init ready4 = .refused .initTwice ∧ exec .clear State.reset = .refused .beforeInit :=
  ⟨rfl, rfl, rfl, rfl⟩

/-! ## Dispatcher: vectors V8, V9 -/

/-- V8: `CMD 0x01` has no trailing guard of 2000 µs. -/
theorem test_cmd : sentBy (.cmd 0x01#8) ready8 = [(false, 0x01#8)] ∧
    (after (.cmd 0x01#8) ready8).trace.getLast? = some (.delay 100) := by decide +kernel
/-- V9. -/
theorem test_wrb : (after (.wrb 0x41#8) ready8).trace.take 9 =
    [.setLine .rs true, .setLine (.d 0) true, .setLine (.d 1) false, .setLine (.d 2) false, .setLine (.d 3) false,
      .setLine (.d 4) false, .setLine (.d 5) false, .setLine (.d 6) true, .setLine (.d 7) false] := by decide +kernel

/-! ## Display operations: vectors V20 to V25 -/

/-- S7: the command and then the guard. -/
theorem test_clear : sentBy .clear ready8 = [(false, 0x01#8)] ∧
    (after .clear ready8).trace.getLast? = some (.delay 2000) := by decide +kernel
/-- V23. -/
theorem test_home : sentBy .home ready4 = [(false, 0x02#8)] ∧
    (after .home ready4).trace.getLast? = some (.delay 2000) := by decide +kernel

/-- V20, `lineCount = 2`: both clamps and the wrapped sum. -/
theorem test_setCursor_two_rows :
    sentBy (.setCursor 3#8 1#8) ready4 = [(false, 0xC3#8)] ∧ sentBy (.setCursor 0#8 255#8) ready4 = [(false, 0xC0#8)] ∧
    sentBy (.setCursor 0xC0#8 1#8) ready4 = [(false, 0x80#8)] ∧
    sentBy (.setCursor 255#8 0#8) ready4 = [(false, 0xFF#8)] := by decide +kernel
/-- V20, four rows. -/
theorem test_setCursor_four_rows :
    sentBy (.setCursor 3#8 2#8) ready8 = [(false, 0x97#8)] ∧ sentBy (.setCursor 19#8 3#8) ready8 = [(false, 0xE7#8)] ∧
    sentBy (.setCursor 0#8 200#8) ready8 = [(false, 0xD4#8)] := by decide +kernel

/-- `ready8` with other flags. -/
def withFlags (display entry : Byte) : State := { ready8 with displayControlFlags := display, entryModeFlags := entry }

/-- V21. -/
theorem test_display : (after .display (withFlags 0x03#8 0#8)).displayControlFlags = 0x07#8 ∧
    sentBy .display (withFlags 0x03#8 0#8) = [(false, 0x0F#8)] := by decide +kernel
theorem test_noDisplay : (after .noDisplay (withFlags 0x07#8 0#8)).displayControlFlags = 0x03#8 ∧
    sentBy .noDisplay (withFlags 0x07#8 0#8) = [(false, 0x0B#8)] := by decide +kernel
theorem test_cursor : (after .cursor (withFlags 0x04#8 0#8)).displayControlFlags = 0x06#8 ∧
    sentBy .cursor (withFlags 0x04#8 0#8) = [(false, 0x0E#8)] := by decide +kernel
theorem test_noCursor : (after .noCursor (withFlags 0x06#8 0#8)).displayControlFlags = 0x04#8 ∧
    sentBy .noCursor (withFlags 0x06#8 0#8) = [(false, 0x0C#8)] := by decide +kernel
theorem test_blink : (after .blink (withFlags 0x06#8 0#8)).displayControlFlags = 0x07#8 ∧
    sentBy .blink (withFlags 0x06#8 0#8) = [(false, 0x0F#8)] := by decide +kernel
theorem test_noBlink : (after .noBlink (withFlags 0x07#8 0#8)).displayControlFlags = 0x06#8 ∧
    sentBy .noBlink (withFlags 0x07#8 0#8) = [(false, 0x0E#8)] := by decide +kernel

/-- V23. -/
theorem test_scrollL : sentBy .scrollL ready4 = [(false, 0x18#8)] := by decide +kernel
theorem test_scrollR : sentBy .scrollR ready4 = [(false, 0x1C#8)] := by decide +kernel

/-- V22. -/
theorem test_ltr : (after .ltr (withFlags 0#8 0x01#8)).entryModeFlags = 0x03#8 ∧
    sentBy .ltr (withFlags 0#8 0x01#8) = [(false, 0x07#8)] := by decide +kernel
theorem test_rtl : (after .rtl (withFlags 0#8 0x03#8)).entryModeFlags = 0x01#8 ∧
    sentBy .rtl (withFlags 0#8 0x03#8) = [(false, 0x05#8)] := by decide +kernel
theorem test_autoscroll : (after .autoscroll (withFlags 0#8 0x02#8)).entryModeFlags = 0x03#8 ∧
    sentBy .autoscroll (withFlags 0#8 0x02#8) = [(false, 0x07#8)] := by decide +kernel
theorem test_noAutoscroll : (after .noAutoscroll (withFlags 0#8 0x03#8)).entryModeFlags = 0x02#8 ∧
    sentBy .noAutoscroll (withFlags 0#8 0x03#8) = [(false, 0x06#8)] := by decide +kernel

/-- V24: slot 2 and the whole glyph, its last byte unmasked. -/
theorem test_createChar :
    sentBytes ready8.bus ready8.lines
      (eventsOf (.createChar 2#8 #v[0x1F#8, 0x11#8, 0x11#8, 0x11#8, 0x11#8, 0x11#8, 0x1F#8, 0xFF#8]) ready8) =
      [(false, 0x50#8), (true, 0x1F#8), (true, 0x11#8), (true, 0x11#8), (true, 0x11#8), (true, 0x11#8),
        (true, 0x11#8), (true, 0x1F#8), (true, 0xFF#8)] := by decide +kernel
/-- V24: the slot is masked. -/
theorem test_createChar_slots :
    [0x07#8, 0x08#8, 0xFF#8, 0xF9#8].map (fun slot => composite hd44780Codes.setCgramAddr (cgramAddress slot))
      = [0x78#8, 0x40#8, 0x78#8, 0x48#8] := by decide

/-- V25. -/
theorem test_wrStr : sentBy (.wrStr [0x80#8, 0xFF#8, 0x01#8]) ready4
    = [(true, 0x80#8), (true, 0xFF#8), (true, 0x01#8)] := by decide +kernel
theorem test_wrStr_empty : exec (.wrStr []) ready4 = .next ready4 := rfl

/-! ## Other codes and another terminator: the configuration of 92 D10 and 93 Part 2 -/

/-- `ready8` with numbers that are not the HD44780's: RETURNHOME, SETDDRAMADDR and the DL flag on bit 6. -/
def readyOther : State :=
  { ready8 with
    functionFlags := 0x48#8
    config :=
      { ready8.config with
        codes :=
          { hd44780Codes with
            returnHome := 0x03#8
            setDdramAddr := 0xC0#8
            f8Bit := 0x40#8
            dlApart := by decide }
        terminator := 0x04#8 } }

/-- The bytes follow the codes (30_encoding.md R101, R107), and the framing the flag that `F_8BIT` names. -/
theorem test_other_codes : sentBy .home readyOther = [(false, 0x03#8)] ∧
    sentBy (.setCursor 3#8 0#8) readyOther = [(false, 0xC3#8)] ∧
    sentBy (.cmd 0x02#8) readyOther = [(false, 0x02#8)] := by decide +kernel
/-- `WRSTR` stops at the terminator of the configuration (R95), and 0x00 is then a character. -/
theorem test_other_terminator :
    decode 0x04#8 [0x11#8, 0x48#8, 0x00#8, 0x04#8, 0x01#8] = .ok (.wrStr [0x48#8, 0x00#8]) [0x01#8] ∧
    sentBy (.wrStr [0x48#8, 0x00#8]) readyOther = [(true, 0x48#8), (true, 0x00#8)] := by decide +kernel

/-! ## Bus rows: the table of R109 -/

theorem test_clearDisplay : sentBy .clearDisplay ready4 = [(false, 0b00000001#8)] := by decide +kernel
theorem test_returnHome : sentBy .returnHome ready4 = [(false, 0b00000010#8)] := by decide +kernel
theorem test_entryModeSet : sentBy (.entryModeSet false true) ready4 = [(false, 0b00000101#8)] := by decide +kernel
theorem test_displayControl : sentBy (.displayControl true false true) ready4 = [(false, 0b00001101#8)] := by
  decide +kernel
theorem test_cursorShift : sentBy (.cursorShift true) ready4 = [(false, 0b00011100#8)] := by decide +kernel
theorem test_functionSet : sentBy (.functionSet true false true) ready4 = [(false, 0b00110100#8)] := by decide +kernel
theorem test_setCgramAddr : sentBy (.setCgramAddr 6#3) ready4 = [(false, 0b01110000#8)] := by decide +kernel
theorem test_setDdramAddr : sentBy (.setDdramAddr 0x43#7) ready4 = [(false, 0b11000011#8)] := by decide +kernel
theorem test_handshake3 : (after .handshake3 ready4).trace.take 4 =
    [.setLine (.d 0) true, .setLine (.d 1) true, .setLine (.d 2) false, .setLine (.d 3) false] := by decide +kernel
theorem test_handshake2 : (after .handshake2 ready4).trace.take 4 =
    [.setLine (.d 0) false, .setLine (.d 1) true, .setLine (.d 2) false, .setLine (.d 3) false] := by decide +kernel

/-! ## Witnesses: for each statement with hypotheses, states and operands that meet all of them together, at the
boundary of each clause -/

/-- `ready4` with bytes offered. -/
def offered (bytes : List Byte) : State := { ready4 with inbox := bytes }

/-- `INIT` in progress, `k` of its events out. -/
def initRunning (k : Nat) : State :=
  { State.reset with pos := .running ⟨.init, k, (initProgram State.reset.config).drop k⟩ }

theorem ready4_idle (p : Progress) : ready4.pos ≠ .running p := by simp [ready4]
theorem offered_idle (bytes : List Byte) (p : Progress) : (offered bytes).pos ≠ .running p := by simp [offered, ready4]
theorem reset_idle (p : Progress) : State.reset.pos ≠ .running p := by simp [State.reset, State.create]

theorem witness_RequestDecodesFromItsBytes :
    (Instr.wrStr []).isRequest = true ∧ (Instr.wrStr []).wellFormed 0x00#8 = true ∧
    (Instr.setCursor 255#8 255#8).isRequest = true ∧ (Instr.setCursor 255#8 255#8).wellFormed 0x00#8 = true ∧
    (Instr.wrStr [0x00#8]).isRequest = true ∧ (Instr.wrStr [0x00#8]).wellFormed 0xFF#8 = true := by decide

theorem witness_DecodedRequestIsItsBytes :
    decode 0x00#8 [0x00#8] = .ok .init [] ∧ decode 0x00#8 [0x13#8, 0x00#8, 0xFF#8] = .ok (.wrb 0x00#8) [0xFF#8] := by decide

theorem witness_BusRowDecodesFromItsByte :
    (Instr.setDdramAddr 0x7F#7).isBusCommand = true ∧ Instr.handshake2.isRequest = false ∧
    Instr.handshake2.isBusCommand = false := by decide

/-- The first and the last byte of each range that is no bus command, beside bytes that are one. -/
theorem witness_BusDecoderAcceptsNothingElse :
    decodeBus 0x01#8 = some .clearDisplay ∧ decodeBus 0xFF#8 = some (.setDdramAddr 0x7F#7) ∧
    [0x00#8, 0x03#8, 0x10#8, 0x17#8, 0x19#8, 0x1F#8, 0x21#8, 0x3F#8, 0x41#8, 0x7F#8].map decodeBus
      = List.replicate 10 none := by decide

theorem witness_StepRunsTheDecodedRequest :
    (∀ p, (offered [0x01#8, 0x02#8]).pos ≠ .running p) ∧
    decode nulTerminator (offered [0x01#8, 0x02#8]).inbox = .ok .clear [0x02#8] := ⟨offered_idle _, by decide⟩

theorem witness_IdleBlockDoesNothing :
    (∀ p, State.reset.pos ≠ .running p) ∧ decode nulTerminator State.reset.inbox = .error .incomplete ∧
    (∀ p, (offered [0x03#8, 0x05#8]).pos ≠ .running p) ∧
    decode nulTerminator (offered [0x03#8, 0x05#8]).inbox = .error .incomplete :=
  ⟨reset_idle, by decide, offered_idle _, by decide⟩

theorem witness_ReservedOpcodesAreRefused :
    (∀ p, (offered [0x14#8]).pos ≠ .running p) ∧ 0x14 ≤ (0x14#8).toNat ∧ (offered [0x14#8]).inbox = [0x14#8] ∧
    (∀ p, (offered [0xFF#8, 0x01#8]).pos ≠ .running p) ∧ 0x14 ≤ (0xFF#8).toNat ∧
    (offered [0xFF#8, 0x01#8]).inbox = [0xFF#8, 0x01#8] ∧
    (∀ p, (offered [0x11#8]).pos ≠ .running p) ∧ ([] : List Byte).all (· != 0x00#8) = true ∧
    (offered [0x11#8]).inbox = [0x11#8] ∧
    (∀ p, (offered [0x11#8, 0x48#8]).pos ≠ .running p) ∧ [0x48#8].all (· != 0x00#8) = true ∧
    (offered [0x11#8, 0x48#8]).inbox = [0x11#8, 0x48#8] :=
  ⟨offered_idle _, by decide, rfl, offered_idle _, by decide, rfl, offered_idle _, by decide, rfl, offered_idle _,
    by decide, rfl⟩

/-- A micro-step with others to come, and the last one. -/
theorem witness_RequestInProgressGoesOnByOneEvent :
    (∃ p m rest, runningState.pos = .running p ∧ p.todo = m :: rest ∧ rest ≠ []) ∧
    (∃ s : State, ∃ p m, s.pos = .running p ∧ p.todo = [m]) :=
  ⟨⟨_, _, _, rfl, rfl, by simp⟩,
    ⟨{ ready8 with pos := .running ⟨.wrb 0#8, 14, [⟨[], .delay 100⟩]⟩ }, _, _, rfl, rfl⟩⟩

theorem witness_MicroStepsReachTheMeaning :
    (Instr.cmd 0x01#8).isRequest = true ∧ (∀ p, ready4.pos ≠ .running p) ∧ (∃ t, exec (.cmd 0x01#8) ready4 = .next t) ∧
    21 < (programOf (.cmd 0x01#8) ready4).length ∧
    Instr.init.isRequest = true ∧ (∀ p, State.reset.pos ≠ .running p) ∧ (∃ t, exec .init State.reset = .next t) ∧
    135 < (programOf .init State.reset).length :=
  ⟨rfl, ready4_idle, ⟨_, rfl⟩, by decide +kernel, rfl, reset_idle, ⟨_, rfl⟩, by decide +kernel⟩

/-- `lines` at 0, 1, 4 and 5 in `UNINIT`; `READY`; a request in progress. -/
theorem witness_AcceptanceFollowsThePhase :
    Instr.clear.isRequest = true ∧ Instr.clear ≠ .init ∧ State.reset.pos = .uninit ∧ ready4.pos = .ready ∧
    (∀ n : Byte, (State.create (mkConfig .bit4 16#8 n .default true .base0)).pos = .uninit) ∧
    (∃ p, runningState.pos = .running p) ∧
    [0#8, 1#8, 4#8, 5#8].map (fun n => Config.linesLegal (mkConfig .bit4 16#8 n .default true .base0))
      = [false, true, true, false] :=
  ⟨rfl, by decide, rfl, rfl, fun _ => rfl, ⟨_, rfl⟩, by decide⟩

theorem witness_ConfigurationIsFixedByInit :
    State.reset.pos = .uninit ∧ ready4.pos ≠ .uninit ∧ (initRunning 1).pos ≠ .uninit := by decide +kernel

/-- The invariant holds, and a step answers: in `READY` with a request offered, in `UNINIT`, inside a request. -/
theorem witness_StepKeepsTheInvariant :
    Inv (offered [0x01#8]) ∧ (∃ t, step (offered [0x01#8]) = .next t) ∧
    Inv { State.reset with inbox := [0x00#8] } ∧ (∃ t, step { State.reset with inbox := [0x00#8] } = .next t) ∧
    Inv runningState ∧ (∃ t, step runningState = .next t) :=
  ⟨by decide +kernel, ⟨_, rfl⟩, by decide +kernel, ⟨_, rfl⟩, by decide +kernel, ⟨_, rfl⟩⟩

theorem witness_ConfigurationNeverChanges :
    (∃ t, exec .clear ready4 = .next t) ∧ (∃ t, exec .handshake3 State.reset = .next t) ∧
    (∃ t, step (offered [0x01#8]) = .next t) := ⟨⟨_, rfl⟩, ⟨_, rfl⟩, ⟨_, rfl⟩⟩

theorem witness_LineLevelsAreNeverRead :
    (∃ t, exec .clear runningState = .next t) ∧ exec .init ready4 = .refused .initTwice := ⟨⟨_, rfl⟩, rfl⟩

theorem witness_InitIgnoresUnwrittenRegisters : State.reset.pos = .uninit := by decide

theorem witness_UnusedLinesAreNeverWritten :
    Inv (offered [0x01#8]) ∧ (∃ t, step (offered [0x01#8]) = .next t) ∧
    eventAllowed (offered [0x01#8]).config (.setLine (.d 4) true) = false ∧
    Inv { ready8 with inbox := [0x02#8] } ∧ (∃ t, step { ready8 with inbox := [0x02#8] } = .next t) ∧
    eventAllowed ready8.config (.setLine .rw true) = false :=
  ⟨by decide +kernel, ⟨_, rfl⟩, by decide, by decide +kernel, ⟨_, rfl⟩, by decide⟩

theorem witness_PulseStrobeIsExact :
    levelOf ready4.lines .e = false ∧ Line.d 0 ≠ .e ∧ Line.rs ≠ .e ∧ Line.rw ≠ .e := by decide

theorem witness_DriveEightLatchesTheByte : ready8.bus.dl = true ∧ levelOf ready8.lines .e = false := by decide

theorem witness_DriveFourLatchesTheNibble :
    ready4.bus.dl = false ∧ levelOf ready4.lines .e = false ∧ Line.d 4 ≠ .e ∧
    (∀ i, nibbleLine ready4.bus.nibbleBase i ≠ .d 4) ∧ (∀ i, nibbleLine .base4 i ≠ .d 3) := by decide

theorem witness_TransferByteFramesTheByte :
    ready4.bus.timing = sourceTiming ∧ levelOf ready4.lines .e = false ∧ ready8.bus.timing = sourceTiming ∧
    levelOf ready8.lines .e = false ∧ ready4.config.codes = hd44780Codes := by decide

theorem witness_NibblesReconstructTheByte :
    levelOf ready4.lines .e = false ∧ ready4.bus.dl = false ∧ levelOf ready8.lines .e = false ∧
    ready8.bus.dl = true := by decide

theorem witness_LinesHoldAroundATransfer :
    ready4.bus.rwWired = true ∧ ready4.bus.dl = false ∧ ready8.bus.rwWired = false ∧ ready8.bus.dl = true := by decide

/-- The one hypothesis `s.pos = .ready` of the request statements. -/
theorem witness_DispatcherSendsTheByte : ready4.pos = .ready ∧ ready8.pos = .ready ∧ State.reset.pos = .uninit := by
  decide
theorem witness_ScrollSendsItsByte : ready4.pos = .ready := by decide
theorem witness_CreateCharUploadsTheGlyph : ready4.pos = .ready ∧ 8#8 &&& 0x07#8 = 0#8 &&& 0x07#8 := by decide
theorem witness_WrStrSendsItsCharacters :
    ready4.pos = .ready ∧ (Instr.wrStr [0xFF#8]).wellFormed 0x00#8 = true ∧ (Instr.wrStr []).wellFormed 0x00#8 = true ∧
    readyOther.pos = .ready ∧ (Instr.wrStr [0x00#8]).wellFormed readyOther.config.terminator = true := by decide

/-- `lines` at 1 and at 4, in both widths. -/
theorem witness_InitDoesItsElevenSteps :
    (State.create (mkConfig .bit4 16#8 1#8 .large true .base4)).pos = .uninit ∧ 1 ≤ (1#8).toNat ∧ (1#8).toNat ≤ 4 ∧
    (State.create (mkConfig .bit8 0#8 4#8 .large false .base0)).pos = .uninit ∧ 1 ≤ (4#8).toNat ∧ (4#8).toNat ≤ 4 := by
  decide

/-- `INIT` runs in each width, with `RW` wired and unwired, from the source's timing. -/
theorem witness_InitLeavesTheTerminalState :
    State.reset.pos = .uninit ∧ (∃ t, exec .init State.reset = .next t) ∧ State.reset.config.bitMode = .bit4 ∧
    State.reset.config.rwWired = true ∧ drives (initBus State.reset.config) (.d 7) = false ∧
    (∃ t, exec .init (State.create (mkConfig .bit8 20#8 4#8 .default false .base0)) = .next t) ∧
    drives (initBus (mkConfig .bit8 20#8 4#8 .default false .base0)) .rw = false :=
  ⟨rfl, ⟨_, rfl⟩, rfl, rfl, by decide, ⟨_, rfl⟩, by decide⟩

theorem witness_InitHasItsStatedSize :
    State.reset.pos = .uninit ∧ State.reset.config.timing = sourceTiming ∧ (∃ t, exec .init State.reset = .next t) :=
  ⟨rfl, rfl, ⟨_, rfl⟩⟩

/-- `E` low and `E` high before `INIT`. -/
theorem witness_InitLatchesItsWords :
    (∃ t, exec .init State.reset = .next t) ∧ State.reset.level .e = false ∧
    (∃ t, exec .init { State.reset with lines := Vector.replicate 11 true } = .next t) ∧
    ({ State.reset with lines := Vector.replicate 11 true } : State).level .e = true :=
  ⟨⟨_, rfl⟩, by decide, ⟨_, rfl⟩, by decide⟩

theorem witness_OnlyInitWritesItsRegisters :
    Instr.display ≠ .init ∧ (∀ p, ready4.pos ≠ .running p) ∧ (∃ t, exec .display ready4 = .next t) ∧
    Instr.handshake3 ≠ .init ∧ (∃ t, exec .handshake3 ready4 = .next t) :=
  ⟨by decide, ready4_idle, ⟨_, rfl⟩, by decide, ⟨_, rfl⟩⟩

theorem witness_ClearAndHomeSendAndWait : ready4.pos = .ready ∧ ready8.pos = .ready := by decide

/-- `lineCount` at 1 and at 4, `r2` at 0 and at 3. -/
theorem witness_SetCursorSendsTheAddress :
    ready8.pos = .ready ∧ 1 ≤ ready8.lineCount.toNat ∧ ready8.lineCount.toNat ≤ 4 ∧
    (3 : Nat) = min (255#8).toNat 3 ∧ 3 = min 3 (ready8.lineCount.toNat - 1) ∧ 3 < 4 ∧
    ({ ready8 with lineCount := 1#8 } : State).pos = .ready ∧ 0 = min 3 ((1#8).toNat - 1) := by decide

theorem witness_RowClampNeverLeavesTheTable : 1 ≤ (1#8).toNat ∧ 1 ≤ (255#8).toNat := by decide

theorem witness_DisplayCursorBlinkSetTheirBit :
    (ready4.pos = .ready ∧ ∀ x ∈ [(Instr.display, 0x05#8, ready4.config.codes.displayOn),
      (Instr.cursor, 0x07#8, ready4.config.codes.cursorOn),
      (Instr.blink, 0x09#8, ready4.config.codes.blinkOn)], encode ready4.config.terminator x.1 = [x.2.1]) ∧
    (∃ t u, exec .cursor ready4 = .next t ∧ exec .cursor t = .next u) := ⟨by decide, _, _, rfl, rfl⟩
theorem witness_NoDisplayCursorBlinkClearTheirBit :
    ready4.pos = .ready ∧ ∀ x ∈ [(Instr.noDisplay, 0x04#8, ready4.config.codes.displayOn),
      (Instr.noCursor, 0x06#8, ready4.config.codes.cursorOn),
      (Instr.noBlink, 0x08#8, ready4.config.codes.blinkOn)], encode ready4.config.terminator x.1 = [x.2.1] := by decide
theorem witness_LtrAutoscrollSetTheirBit :
    ready4.pos = .ready ∧ ∀ x ∈ [(Instr.ltr, 0x0C#8, ready4.config.codes.entryLeft),
      (Instr.autoscroll, 0x0E#8, ready4.config.codes.shiftInc)],
      encode ready4.config.terminator x.1 = [x.2.1] := by decide
theorem witness_RtlNoAutoscrollClearTheirBit :
    ready4.pos = .ready ∧ ∀ x ∈ [(Instr.rtl, 0x0D#8, ready4.config.codes.entryLeft),
      (Instr.noAutoscroll, 0x0F#8, ready4.config.codes.shiftInc)],
      encode ready4.config.terminator x.1 = [x.2.1] := by decide

theorem witness_EveryRequestSendsItsBytes :
    Instr.home.isRequest = true ∧ Instr.home ≠ .init ∧ ready4.level .e = false ∧ ready8.level .e = false := by decide

/-- Each pair runs one after the other in both orders. -/
theorem witness_SetAndClearLaws :
    ready4.config.codes = hd44780Codes ∧ ready4.pos = .ready ∧
    (∃ t u, exec .ltr ready4 = .next t ∧ exec .rtl t = .next u) ∧
    (∃ t u, exec .noDisplay ready4 = .next t ∧ exec .display t = .next u) ∧
    (∃ t u, exec .blink ready4 = .next t ∧ exec .blink t = .next u) ∧
    (∃ t u, exec .noCursor ready4 = .next t ∧ exec .noCursor t = .next u) ∧
    (∃ t u, exec .autoscroll ready4 = .next t ∧ exec .noAutoscroll t = .next u) :=
  ⟨rfl, rfl, ⟨_, _, rfl, rfl⟩, ⟨_, _, rfl, rfl⟩, ⟨_, _, rfl, rfl⟩, ⟨_, _, rfl, rfl⟩, ⟨_, _, rfl, rfl⟩⟩

theorem witness_FlagsAndBusAgree :
    Instr.display.isRequest = true ∧ (∀ value, Instr.display ≠ .cmd value) ∧ (∀ p, ready4.pos ≠ .running p) ∧
    ready4.config.codes = hd44780Codes ∧ State.reset.config.codes = hd44780Codes ∧
    ready4.level .e = false ∧ ReservedClear ready4 ∧ (∃ t, exec .display ready4 = .next t) ∧
    Instr.init.isRequest = true ∧ (∀ value, Instr.init ≠ .cmd value) ∧ (∀ p, State.reset.pos ≠ .running p) ∧
    State.reset.level .e = false ∧ ReservedClear State.reset ∧ (∃ t, exec .init State.reset = .next t) :=
  ⟨rfl, by simp, ready4_idle, rfl, rfl, by decide, by decide, ⟨_, rfl⟩, rfl, by simp, reset_idle, by decide, by decide,
    ⟨_, rfl⟩⟩

theorem witness_CommandBytesAreBusCommands :
    Instr.ltr.isRequest = true ∧ Instr.ltr ≠ .init ∧ (∀ value, Instr.ltr ≠ .cmd value) ∧ ready8.level .e = false ∧
    ready8.config.codes = hd44780Codes ∧ ReservedClear ready8 ∧
    (false, 0x06#8) ∈ sentBytes ready8.bus ready8.lines (eventsOf .ltr ready8) :=
  ⟨rfl, by decide, by simp, by decide, rfl, by decide, by decide +kernel⟩

theorem witness_RequestsHaveTheirStatedSize :
    (Instr.wrStr [0x48#8]).isRequest = true ∧ Instr.wrStr [0x48#8] ≠ .init ∧ ready4.config.timing = sourceTiming ∧
    ready8.config.timing = sourceTiming := by decide

theorem witness_BusCommandsSendTheirByte :
    ready4.config.codes = hd44780Codes ∧ State.reset.config.codes = hd44780Codes ∧
    Instr.returnHome.isBusCommand = true := by decide

theorem witness_HandshakeNibblesAreRaw :
    Event.setLine (.d 0) true ∈ drive4 ready4.bus 0x03#8 ++ drive4 ready4.bus 0x02#8 ∧
    Event.setLine .e false ∈ drive4 ready8.bus 0x03#8 ++ drive4 ready8.bus 0x02#8 := by decide

/-- A bus command before `INIT` is two nibble transfers where `functionFlags` hold 0x00 as after reset (22 events with
`RW` wired, R136), and one eight-line transfer where their DL bit is set (16 events). -/
theorem witness_BusCommandsBeforeInitFollowTheHeldFlags :
    Instr.clearDisplay.isBusCommand = true ∧ State.reset.pos = .uninit ∧
    (∃ t, exec .clearDisplay State.reset = .next t ∧ t.trace.length = 22) ∧
    (∃ t, exec .clearDisplay { State.reset with functionFlags := 0x10#8 } = .next t ∧ t.trace.length = 16) :=
  ⟨rfl, rfl, ⟨_, rfl, by decide +kernel⟩, ⟨_, rfl, by decide +kernel⟩⟩

theorem witness_FrameOfRegisterFreeRequests :
    (Instr.cmd 0x28#8).isRequest = true ∧ Instr.cmd 0x28#8 ≠ .init ∧ writesDisplayControl (.cmd 0x28#8) = false ∧
    writesEntryMode (.cmd 0x28#8) = false ∧ (∀ p, ready4.pos ≠ .running p) ∧
    (∃ t, exec (.cmd 0x28#8) ready4 = .next t) ∧ drives ready4.bus (.d 4) = false :=
  ⟨rfl, by decide, rfl, rfl, ready4_idle, ⟨_, rfl⟩, by decide⟩

theorem witness_FrameOfDisplayControlRequests :
    writesDisplayControl .noBlink = true ∧ (∀ p, ready4.pos ≠ .running p) ∧ (∃ t, exec .noBlink ready4 = .next t) ∧
    drives ready4.bus (.d 7) = false := ⟨rfl, ready4_idle, ⟨_, rfl⟩, by decide⟩

theorem witness_FrameOfEntryModeRequests :
    writesEntryMode .rtl = true ∧ (∀ p, ready4.pos ≠ .running p) ∧ (∃ t, exec .rtl ready4 = .next t) ∧
    drives ready4.bus (.d 7) = false := ⟨rfl, ready4_idle, ⟨_, rfl⟩, by decide⟩

theorem witness_FrameOfInit :
    (∃ t, exec .init State.reset = .next t) ∧ drives (initBus State.reset.config) (.d 4) = false :=
  ⟨⟨_, rfl⟩, by decide⟩

theorem witness_FrameOfBusRows :
    Instr.handshake3.isRequest = false ∧ (∃ t, exec .handshake3 State.reset = .next t) ∧
    Instr.returnHome.isRequest = false ∧ (∃ t, exec .returnHome runningState = .next t) ∧
    drives ready8.bus .rw = false := ⟨rfl, ⟨_, rfl⟩, rfl, ⟨_, rfl⟩, by decide⟩

theorem witness_LinesAreStableWhileStrobeIsHigh : State.reset.level .e = false ∧ ready8.level .e = false := by decide

theorem witness_LatchPointsAreSpaced :
    Instr.clear ≠ .init ∧ ready4.config.timing.tSettle ≤ 100 ∧
    102 ∈ latchGaps false 0 (transferByte ready4.bus 0x01#8 .command) := by decide +kernel

theorem witness_InitLatchPointsAreSpaced :
    State.reset.config.timing = sourceTiming ∧
    (State.create (mkConfig .bit8 20#8 4#8 .default false .base0)).config.timing = sourceTiming := by decide

/-- Each of the six guards is asked for somewhere. -/
theorem witness_GuardsAreOfTheStatedSet :
    ready4.config.timing = sourceTiming ∧ Event.delay 2000 ∈ eventsOf .home ready4 ∧
    State.reset.config.timing = sourceTiming ∧
    ∀ n ∈ [1, 100, 150, 2000, 4500, 50000], Event.delay n ∈ eventsOf .init State.reset := by decide +kernel

end Sys2Proof.Tests
end

section
/-! Proofs of the statements about the block's scope (00_scope.md): its configuration, its trace, the levels of its
lines and the latched words. -/

namespace Sys2Proof.Machine

open Sys2Proof.Safety

/-! ## A request run event by event (10_state.md R42) -/

/-- One step inside a request does its next micro-step and counts it. -/
theorem step_resume_cons (s : State) (i : Instr) (idx : Nat) (m : Micro) (rest : List Micro) :
    step { s with pos := .resume i idx (m :: rest) }
      = .next { s.perform m with pos := .resume i (idx + 1) rest } := by
  have htick : step { s with pos := .resume i idx (m :: rest) }
      = .next { ({ s with pos := .resume i idx (m :: rest) } : State).perform m with
          pos := .resume i (idx + 1) rest } := rfl
  have hperform := State.performAll_withPos s [m] (.resume i idx (m :: rest))
  simp only [State.performAll_cons, State.performAll_nil] at hperform
  rw [htick, ← hperform]

/-- A step that answers a state, first in a run. -/
theorem run_succ_of_step {s t : State} (h : step s = .next t) (k : Nat) :
    Host.Core.run core (k + 1) s = Host.Core.run core k t := by
  have hstep : core.step s = .next t := h
  simp only [Host.Core.run, hstep]

/-- `k` steps inside a request do its first `k` micro-steps and leave the others to come. -/
theorem run_resume (s : State) (i : Instr) (idx : Nat) (todo : List Micro) (k : Nat) (hk : k ≤ todo.length) :
    Host.Core.run core k ({ s with pos := .resume i idx todo } : State)
      = .next ({ s.performAll (todo.take k) with pos := .resume i (idx + k) (todo.drop k) } : State) := by
  induction k generalizing s idx todo with
  | zero => rfl
  | succ k ih =>
    cases todo with
    | nil => exact absurd hk (by simp)
    | cons m rest =>
      have hrun : Host.Core.run core (k + 1) ({ s with pos := .resume i idx (m :: rest) } : State)
          = Host.Core.run core k ({ s.perform m with pos := .resume i (idx + 1) rest } : State) :=
        run_succ_of_step (step_resume_cons s i idx m rest) k
      rw [hrun, ih _ _ _ (by simpa using hk)]
      simp only [List.take_succ_cons, List.drop_succ_cons, State.performAll_cons, Nat.add_right_comm idx 1 k,
        Nat.add_assoc]

/-- A request that still has micro-steps to come is in progress. -/
theorem Position.resume_of_ne_nil (i : Instr) (idx : Nat) {todo : List Micro} (h : todo ≠ []) :
    Position.resume i idx todo = .running ⟨i, idx, todo⟩ := by
  cases todo with
  | nil => exact absurd rfl h
  | cons m rest => rfl

/-- Where a request accepted by an idle block ends: its micro-steps done, in `READY` (R40, R43). -/
theorem exec_request_idle_end {i : Instr} {s t : State} (hr : i.isRequest = true)
    (hn : ∀ p, s.pos ≠ .running p) (h : exec i s = .next t) :
    t = { s.performAll (programOf i s) with pos := .ready } := by
  by_cases hi : i = .init
  · subst hi
    exact (exec_init_next h).2.2
  · obtain ⟨hpos, rfl⟩ := exec_request_idle hr hi hn h
    rw [State.performAll_withPos, ← hpos]

/-- Settles O10, by the run of any number of micro-steps (`run_resume`): all of them end in `READY`, fewer leave the
request in progress. -/
theorem microStepsReachTheMeaning : Obligations.MicroStepsReachTheMeaning := by
  intro i s t hr hn h
  refine ⟨?_, fun k hk => ?_⟩
  · have hall := run_resume s i 0 (programOf i s) _ le_rfl
    rw [List.take_length, List.drop_length] at hall
    rw [exec_request_idle_end hr hn h]
    exact hall
  · have htodo : (programOf i s).drop k ≠ [] := by simpa using hk
    have hpos := Position.resume_of_ne_nil i (0 + k) htodo
    refine ⟨_, _, run_resume s i 0 (programOf i s) k hk.le, hpos, Nat.zero_add k, ?_, ?_, ?_⟩
    · simp only [State.phase, hpos, Position.phase]
    · simp [eventsOf, List.map_take]
    · simp

/-! ## The configuration (10_state.md R20 (d)) -/

@[simp] theorem State.tick_config (s : State) (p : Progress) : (s.tick p).config = s.config := by
  unfold State.tick
  cases p.todo with
  | nil => rfl
  | cons m rest => exact State.perform_config s m

/-- No instruction changes the configuration: requests perform micro-steps, bus rows emit events. -/
theorem exec_config {i : Instr} {s t : State} (h : exec i s = .next t) : t.config = s.config := by
  cases hr : i.isRequest with
  | true =>
    by_cases hi : i = .init
    · subst hi
      obtain ⟨-, -, rfl⟩ := exec_init_next h
      simp
    · obtain ⟨-, rfl⟩ := exec_request_next hr hi h
      simp
  | false =>
    obtain ⟨es, rfl, -⟩ := exec_busRow_next hr h
    simp

/-- No step changes the configuration. -/
theorem step_config {s t : State} (h : step s = .next t) : t.config = s.config := by
  rw [step] at h
  rcases State.advance_cases exec s with
    ⟨p, -, he⟩ | ⟨-, ⟨i, rest, -, he⟩ | ⟨-, he⟩ | ⟨b, -, he⟩ | ⟨-, he⟩⟩ <;> rw [he] at h
  · cases h
    simp
  · exact (exec_config h :)
  · cases h
    rfl
  · cases h
  · cases h

/-- Settles O16, by what `exec` and `step` can answer. -/
theorem configurationNeverChanges : Obligations.ConfigurationNeverChanges :=
  ⟨fun _ _ _ h => exec_config h, fun _ _ h => step_config h⟩

/-- Settles O12, by the three positions. -/
theorem configurationIsFixedByInit : Obligations.ConfigurationIsFixedByInit := by
  intro c s
  rcases s.pos_cases with hs | ⟨p, hs⟩ | hs <;> simp [State.configure, hs]

/-! ## The levels of the lines are written and never read (10_state.md R35) -/

/-- `run` adds an event list to the trace and to the latches, the same one whatever levels `ls` the latches of `s` are
replaced by, and refuses whatever they are. -/
def IgnoresLines (run : State → Host.Outcome State Fault Refusal) (s : State) (ls : Lines) : Prop :=
  (∀ t, run s = .next t → ∃ es, t.trace = s.trace ++ es ∧ t.lines = linesAfter s.lines es ∧
    run { s with lines := ls } = .next { t with lines := linesAfter ls es }) ∧
  (∀ r, run s = .refused r → run { s with lines := ls } = .refused r)

theorem IgnoresLines.of_refused {run : State → Host.Outcome State Fault Refusal} {s : State} {ls : Lines}
    {r : Refusal} (h : run s = .refused r) (h' : run { s with lines := ls } = .refused r) :
    IgnoresLines run s ls := by
  simp [IgnoresLines, h, h']

theorem IgnoresLines.of_next {run : State → Host.Outcome State Fault Refusal} {s t : State} {ls : Lines}
    {es : List Event} (h : run s = .next t) (htrace : t.trace = s.trace ++ es)
    (hlines : t.lines = linesAfter s.lines es)
    (h' : run { s with lines := ls } = .next { t with lines := linesAfter ls es }) : IgnoresLines run s ls := by
  refine ⟨fun u hu => ?_, fun r hr => ?_⟩
  · rw [h] at hu
    cases hu
    exact ⟨es, htrace, hlines, h'⟩
  · rw [h] at hr
    cases hr

/-- The events of the request in progress. -/
def pendingEvents (s : State) : List Event := (pendingSteps s).map Micro.event

theorem State.settle_trace (s : State) : s.settle.trace = s.trace ++ pendingEvents s := by
  rcases s.pos_cases with hs | ⟨p, hs⟩ | hs <;> simp [State.settle, pendingEvents, pendingSteps, hs]

theorem State.settle_lines (s : State) : s.settle.lines = linesAfter s.lines (pendingEvents s) := by
  rcases s.pos_cases with hs | ⟨p, hs⟩ | hs <;> simp [State.settle, pendingEvents, pendingSteps, hs]

theorem State.settle_withLines (s : State) (ls : Lines) :
    ({ s with lines := ls } : State).settle
      = { s.settle with lines := linesAfter ls (pendingEvents s) } := by
  rcases s.pos_cases with hs | ⟨p, hs⟩ | hs
  · simp [State.settle, pendingEvents, pendingSteps, hs]
  · have hs' : ({ s with lines := ls } : State).pos = .running p := hs
    rw [State.settle_of_running hs, State.settle_of_running hs', State.performAll_withLines]
    simp [pendingEvents, pendingSteps, hs]
  · simp [State.settle, pendingEvents, pendingSteps, hs]

/-- A request other than `INIT` ignores the levels: neither the end of the request in progress nor its own
micro-steps depend on them. -/
theorem exec_request_ignoresLines {i : Instr} (hr : i.isRequest = true) (hi : i ≠ .init) (s : State) (ls : Lines) :
    IgnoresLines (exec i) s ls := by
  have hexec := exec_request hr hi
  rcases s.settle_pos with hpos | ⟨-, -, hpos⟩
  · have hpos' : ({ s with lines := ls } : State).settle.pos = .ready := by rw [State.settle_withLines, ← hpos]
    refine .of_next (t := s.settle.performAll (programOf i s.settle)) (es := pendingEvents s ++ eventsOf i s.settle)
      ?_ ?_ ?_ ?_
    · rw [hexec, ← State.acceptInReady_settle, State.acceptInReady_of_ready hpos]
    · simp [State.settle_trace, eventsOf]
    · simp [State.settle_lines, eventsOf]
    · rw [hexec, ← State.acceptInReady_settle, State.acceptInReady_of_ready hpos', State.settle_withLines,
        programOf_withLines, State.performAll_withLines, linesAfter_append]
      rfl
  · exact .of_refused (by rw [hexec, State.acceptInReady_of_uninit hpos])
      ((hexec _).trans (State.acceptInReady_of_uninit (s := { s with lines := ls }) hpos i (programOf i)))

/-- `INIT` ignores the levels: its acceptance looks at the position and the configuration only. -/
theorem exec_init_ignoresLines (s : State) (ls : Lines) : IgnoresLines (exec .init) s ls := by
  rcases State.acceptInUninit_cases s initProgram with ⟨hpos, hlegal, he⟩ | ⟨hpos, hlegal, he⟩ | ⟨hpos, he⟩
  · refine .of_next (es := (initProgram s.config).map Micro.event) he (by simp) (by simp) ?_
    exact (State.acceptInUninit_of_uninit (s := { s with lines := ls }) hpos hlegal initProgram).trans
      (by rw [State.performAll_withLines])
  · exact .of_refused he (by simp [exec, execInit, State.acceptInUninit, hpos, hlegal])
  · rcases s.pos_cases with hs | ⟨p, hs⟩ | hs
    · exact absurd hs hpos
    all_goals exact .of_refused he (by simp [exec, execInit, State.acceptInUninit, hs])

/-- A bus row ignores the levels: it emits its transfer, in every phase (41_dispatcher.md R152). -/
theorem exec_busRow_ignoresLines {i : Instr} (hr : i.isRequest = false) (s : State) (ls : Lines) :
    IgnoresLines (exec i) s ls := by
  have emits : ∀ es, exec i s = .next (s.emitAll es) →
      exec i { s with lines := ls } = .next (({ s with lines := ls } : State).emitAll es) →
      IgnoresLines (exec i) s ls := by
    intro es h h'
    refine .of_next (es := es) h (by simp) (by simp) ?_
    rw [h', State.emitAll_eq, State.emitAll_eq]
  cases i <;> first | exact Bool.noConfusion hr | exact emits _ rfl rfl

/-- Settles O17, for `INIT`, the other requests and the bus rows in turn. -/
theorem lineLevelsAreNeverRead : Obligations.LineLevelsAreNeverRead := by
  intro i s ls
  change IgnoresLines (exec i) s ls
  cases hr : i.isRequest with
  | true =>
    by_cases hi : i = .init
    · subst hi
      exact exec_init_ignoresLines s ls
    · exact exec_request_ignoresLines hr hi s ls
  | false => exact exec_busRow_ignoresLines hr s ls

/-! ## The words `INIT` latches (42_init_sequencer.md R174) -/

theorem levelOf_drive4_rs (b : BusParams) (n : Byte) (ls : Lines) :
    levelOf (linesAfter ls (drive4 b n)) .rs = levelOf ls .rs :=
  levelOf_drive4_other b n ls (by simp) (by cases b.nibbleBase <;> simp [nibbleLine])

theorem levelOf_transferByte_rs (b : BusParams) (v : Byte) (mode : RegSel) (ls : Lines) :
    levelOf (linesAfter ls (transferByte b v mode)) .rs = modeLevel mode := by
  cases hd : b.dl <;>
    simp [transferByte, hd, levelOf_drive8, levelOf_drive4_rs, levelOf_selectRegister]

/-- The lines as `INIT` step 6 leaves them and every command keeps them: `E`, `RS` and a wired `RW` low (R166). -/
def CommandSelected (b : BusParams) (ls : Lines) : Prop :=
  levelOf ls .e = false ∧ levelOf ls .rs = false ∧ (b.rwWired = true → levelOf ls .rw = false)

/-- Begun on selected lines, `es` latches exactly `words` and leaves the lines selected. -/
def Latches (b : BusParams) (es : List Event) (words : List Latched) : Prop :=
  ∀ ls, CommandSelected b ls → latchedWords b ls es = words ∧ CommandSelected b (linesAfter ls es)

theorem Latches.append {b : BusParams} {es fs : List Event} {ws vs : List Latched} (he : Latches b es ws)
    (hf : Latches b fs vs) : Latches b (es ++ fs) (ws ++ vs) := by
  intro ls hls
  obtain ⟨hws, hmid⟩ := he ls hls
  obtain ⟨hvs, hend⟩ := hf _ hmid
  rw [latchedWords_append, linesAfter_append, hws, hvs]
  exact ⟨rfl, hend⟩

theorem latches_delay (b : BusParams) (n : Nat) : Latches b [.delay n] [] := fun _ hls => ⟨rfl, hls⟩

/-- A word latched with `RS` and a wired `RW` low. -/
def commandWord (b : BusParams) (data : LatchedData) : Latched :=
  ⟨false, if b.rwWired then some false else none, data⟩

/-- A raw nibble is one word (40_bus_transfer.md R134). -/
theorem latches_drive4 {b : BusParams} (hd : b.dl = false) (n : Byte) :
    Latches b (drive4 b n) [commandWord b (.nibble (n.extractLsb' 0 4))] := by
  rintro ls ⟨hE, hrs, hrw⟩
  refine ⟨?_, levelOf_drive4_e b n ls, (levelOf_drive4_rs b n ls).trans hrs, fun hw => ?_⟩
  · rw [latchedWords_drive4 b n hE hd, hrs]
    cases hw : b.rwWired <;> simp [commandWord, hw, hrw]
  · exact (framed_nibble b n hd).rw_low (hrw hw)

/-- A command byte is its transfer's words (R136). -/
theorem latches_commandEvents (b : BusParams) (v : Byte) :
    Latches b (commandEvents b v) (transferWords b v .command) := by
  rintro ls ⟨hE, -, hrw⟩
  exact ⟨latchedWords_transferByte b v .command hE, levelOf_transferByte_e b v .command ls,
    levelOf_transferByte_rs b v .command ls, fun hw => (framed_commandEvents b v).rw_low (hrw hw)⟩

theorem transferWords_command_of_dl {b : BusParams} (hd : b.dl = true) (v : Byte) :
    transferWords b v .command = [commandWord b (.byte v)] := by
  simp [transferWords, commandWord, modeLevel, hd]

theorem transferWords_command_of_not_dl {b : BusParams} (hd : b.dl = false) (v : Byte) :
    transferWords b v .command
      = [commandWord b (.nibble (v.extractLsb' 4 4)), commandWord b (.nibble (v.extractLsb' 0 4))] := by
  simp [transferWords, commandWord, modeLevel, hd]

/-- The words of the handshake, step 7 (R167, R168). -/
def initHandshakeWords (c : Config) : List Latched :=
  match c.bitMode with
  | .bit4 => [0x3#4, 0x3#4, 0x3#4, 0x2#4].map fun n => commandWord (initBus c) (.nibble n)
  | .bit8 => List.replicate 3 (commandWord (initBus c) (.byte (initFunctionSet c)))

theorem latches_initHandshake (c : Config) : Latches (initBus c) (initHandshake c) (initHandshakeWords c) := by
  have hg := latches_delay (initBus c)
  cases h : c.bitMode with
  | bit4 =>
    have hn := latches_drive4 (b := initBus c) (by simp [initBus_dl, h])
    simpa [initHandshake, initHandshake4, initHandshakeWords, h, handshakeNibble3, handshakeNibble2] using
      ((((((hn handshakeNibble3).append (hg c.timing.tH4_1)).append (hn handshakeNibble3)).append
        (hg c.timing.tH4_2)).append (hn handshakeNibble3)).append (hg c.timing.tH4_3)).append (hn handshakeNibble2)
  | bit8 =>
    have hc := latches_commandEvents (initBus c) (initFunctionSet c)
    rw [transferWords_command_of_dl (by simp [initBus_dl, h])] at hc
    simpa [initHandshake, initHandshake8, initHandshakeWords, h, List.replicate] using
      (((hc.append (hg c.timing.tH8_1)).append hc).append (hg c.timing.tH8_2)).append hc

/-- The command bytes of steps 8 to 11 (R169 to R172). -/
def initCommandBytes (c : Config) : List Byte :=
  [initFunctionSet c, composite c.codes.displayControl c.codes.displayOn, clearDisplayCode,
    composite c.codes.entryModeSet c.codes.entryLeft]

/-- The events of steps 8 to 11 (R169 to R172). -/
def initCommandEvents (c : Config) : List Event :=
  commandEvents (initBus c) (initFunctionSet c)
    ++ commandEvents (initBus c) (composite c.codes.displayControl c.codes.displayOn)
    ++ (commandEvents (initBus c) clearDisplayCode ++ [.delay c.timing.tClear])
    ++ commandEvents (initBus c) (composite c.codes.entryModeSet c.codes.entryLeft)

theorem latches_initCommandEvents (c : Config) :
    Latches (initBus c) (initCommandEvents c)
      ((initCommandBytes c).flatMap fun v => transferWords (initBus c) v .command) := by
  have hc := latches_commandEvents (initBus c)
  simpa [initCommandEvents, initCommandBytes] using
    (((hc (initFunctionSet c)).append (hc (composite c.codes.displayControl c.codes.displayOn))).append
      ((hc clearDisplayCode).append (latches_delay _ c.timing.tClear))).append
      (hc (composite c.codes.entryModeSet c.codes.entryLeft))

/-- Steps 5 and 6 select the command register, with one latch point where `E` was high (R166). -/
theorem latchedWords_initForceLow (b : BusParams) (c : Config) (ls : Lines) :
    latchedWords b ls (initPowerOn c ++ initForceLow c)
      = if levelOf ls .e then [latchedNow b ((Event.setLine .rs false).applyTo ls)] else [] := by
  have hE : levelOf ((Event.setLine .rs false).applyTo ls) .e = levelOf ls .e := levelOf_set_ne ls false (by simp)
  cases hw : c.rwWired <;> simp [initPowerOn, initForceLow, hw, latchedWords, hE]

theorem commandSelected_initForceLow (c : Config) (ls : Lines) :
    CommandSelected (initBus c) (linesAfter ls (initPowerOn c ++ initForceLow c)) := by
  cases hw : c.rwWired <;> simp [CommandSelected, initBus, initPowerOn, initForceLow, hw, levelOf_set]

/-- The words of the whole of `INIT` (R166, R174). -/
theorem latchedWords_init (s : State) :
    latchedWords (initBus s.config) s.lines (eventsOf .init s) =
      (if s.level .e then [latchedNow (initBus s.config) ((Event.setLine .rs false).applyTo s.lines)] else [])
        ++ (initHandshakeWords s.config
          ++ (initCommandBytes s.config).flatMap fun v => transferWords (initBus s.config) v .command) := by
  have hevents : eventsOf .init s = (initPowerOn s.config ++ initForceLow s.config)
      ++ (initHandshake s.config ++ initCommandEvents s.config) := by
    simp only [eventsOf, programOf, initProgram_events, initCommandEvents, List.append_assoc]
  have hselected := commandSelected_initForceLow s.config s.lines
  have hwords := ((latches_initHandshake s.config).append (latches_initCommandEvents s.config) _ hselected).1
  rw [hevents, latchedWords_append, latchedWords_initForceLow, hwords]
  rfl

theorem exec_init_functionFlags {s t : State} (h : exec .init s = .next t) :
    t.functionFlags = initFunctionFlags s.config := by
  obtain ⟨-, -, rfl⟩ := exec_init_next h
  simp [State.performAll_initProgram]

/-- After `INIT` transfers are framed as its own were. -/
theorem exec_init_bus {s t : State} (h : exec .init s = .next t) : t.bus = initBus s.config := by
  simp [State.bus, initBus, exec_config h, exec_init_functionFlags h]

/-- Settles O31, by the words of the steps of `INIT` (`latchedWords_init`) in the two framings. -/
theorem initLatchesItsWords : Obligations.InitLatchesItsWords := by
  refine ⟨by decide, ?_⟩
  rintro s t - h rw nib byt fset commands rfl rfl rfl rfl rfl
  rw [exec_init_bus h, exec_init_functionFlags h, latchedWords_init]
  cases hb : s.config.bitMode with
  | bit4 =>
    have hd : (initBus s.config).dl = false := by simp [initBus_dl, hb]
    simp only [initHandshakeWords, hb, transferWords_command_of_not_dl hd]
    rfl
  | bit8 =>
    have hd : (initBus s.config).dl = true := by simp [initBus_dl, hb]
    simp only [initHandshakeWords, hb, transferWords_command_of_dl hd]
    rfl

/-! ## The bytes of every other request (43_display_ops.md R192 to R209) -/

/-- A request that is one transfer, with or without a register write: its byte. -/
theorem sentBytes_segment_transferByte (b : BusParams) (ws : List RegWrite) (v : Byte) (mode : RegSel) {ls : Lines}
    (hE : levelOf ls .e = false) :
    sentBytes b ls ((segment ws (transferByte b v mode)).map Micro.event) = [(modeLevel mode, v)] := by
  simpa using sentBytes_transferByte b v mode hE []

/-- A request that is one command and a guard: its byte. -/
theorem sentBytes_guardedProgram (v : Byte) (guardTime : Timing → Nat) {s : State} (hE : s.level .e = false) :
    sentBytes s.bus s.lines ((guardedProgram v guardTime s).map Micro.event) = [(false, v)] := by
  rw [guardedProgram, segment_map_event, commandEvents, sentBytes_transferByte s.bus v .command hE,
    sentBytes_delay, sentBytes_nil, modeLevel]

/-- Settles O44, by the shapes of the requests: one transfer, a command and a guard, and the data writes of
`CREATECHAR` and `WRSTR`. -/
theorem everyRequestSendsItsBytes : Obligations.EveryRequestSendsItsBytes := by
  intro i s hr hi hE
  cases i
  case init => exact absurd rfl hi
  case clear => exact sentBytes_guardedProgram _ _ hE
  case home => exact sentBytes_guardedProgram _ _ hE
  case createChar slot glyph =>
    rw [eventsOf, programOf, createCharProgram, segment_map_event, commandEvents,
      sentBytes_transferByte s.bus _ .command hE, sentBytes_writeBytesEvents _ _ (levelOf_transferByte_e _ _ _ _)]
    rfl
  case wrStr text =>
    rw [eventsOf, programOf, wrStrProgram, segment_map_event, sentBytes_writeBytesEvents _ _ hE]
    rfl
  all_goals first | exact Bool.noConfusion hr | exact sentBytes_segment_transferByte _ _ _ _ hE

end Sys2Proof.Machine
end

section
/-! Proofs of the statements about the state (10_state.md): the acceptance of requests, the state after reset, and the
frames of the requests. -/

namespace Sys2Proof.Machine

open Sys2Proof.Safety

/-! ## Acceptance (10_state.md R32, R41) -/

theorem exec_init_of_uninit {s : State} (h : s.pos = .uninit) (hl : Config.linesLegal s.config = true) :
    exec .init s = .next { s.performAll (initProgram s.config) with pos := .ready } :=
  State.acceptInUninit_of_uninit h hl initProgram

theorem exec_init_of_lines_illegal {s : State} (h : s.pos = .uninit) (hl : Config.linesLegal s.config = false) :
    exec .init s = .refused .linesOutOfRange := by
  simp [exec, execInit, State.acceptInUninit, h, hl]

theorem exec_init_of_not_uninit {s : State} (h : s.pos ≠ .uninit) : exec .init s = .refused .initTwice := by
  rcases State.acceptInUninit_cases s initProgram with ⟨hp, -⟩ | ⟨hp, -⟩ | ⟨-, he⟩
  · exact absurd hp h
  · exact absurd hp h
  · exact he

theorem exec_request_of_ready {i : Instr} (hr : i.isRequest = true) (hi : i ≠ .init) {s : State}
    (h : s.pos = .ready) : exec i s = .next (s.performAll (programOf i s)) := by
  rw [exec_request hr hi, State.acceptInReady_of_ready h]

/-- With a request in progress the answer is that of the state in which it has ended (log entry 2). -/
theorem exec_request_settle {i : Instr} (hr : i.isRequest = true) {s : State} {p : Progress}
    (h : s.pos = .running p) : exec i s = exec i s.settle := by
  by_cases hi : i = .init
  · subst hi
    rw [exec_init_of_not_uninit (by simp [h]), exec_init_of_not_uninit (by simp [State.settle_of_running h])]
  · rw [exec_request hr hi, exec_request hr hi, State.acceptInReady_settle]

/-- Settles O11, by what `INIT` and the other requests answer in each position. -/
theorem acceptanceFollowsThePhase : Obligations.AcceptanceFollowsThePhase := by
  intro i s hr
  refine ⟨fun hpos hi => ?_, fun hpos hi hlo hhi => ?_, fun hpos hi hout => ?_, fun hpos hi => ?_,
    fun hpos hi => ?_, fun p hpos => ?_⟩
  · rw [exec_request hr hi, State.acceptInReady_of_uninit hpos]
  · subst hi
    exact ⟨_, exec_init_of_uninit hpos (by simp [Config.linesLegal, hlo, hhi]), rfl⟩
  · subst hi
    exact exec_init_of_lines_illegal hpos (by simp only [Config.linesLegal, decide_eq_false_iff_not]; omega)
  · subst hi
    exact exec_init_of_not_uninit (by simp [hpos])
  · exact ⟨_, exec_request_of_ready hr hi hpos, by simp [State.phase, hpos, Position.phase]⟩
  · exact ⟨exec_request_settle hr hpos, by rw [State.settle_of_running hpos]⟩

/-- Settles O18: `INIT` overwrites all five registers (`State.performAll_initProgram`). -/
theorem initIgnoresUnwrittenRegisters : Obligations.InitIgnoresUnwrittenRegisters := by
  intro s ff dc em lc ro hpos
  generalize hu : ({ s with
    functionFlags := ff
    displayControlFlags := dc
    entryModeFlags := em
    lineCount := lc
    rowOffsets := ro } : State) = u
  have hpos' : u.pos = .uninit := by rw [← hu]; exact hpos
  have hconfig : u.config = s.config := by rw [← hu]
  cases hl : Config.linesLegal s.config with
  | true =>
    rw [exec_init_of_uninit hpos hl, exec_init_of_uninit hpos' (by rw [hconfig, hl]),
      State.performAll_initProgram, State.performAll_initProgram, ← hu]
  | false => rw [exec_init_of_lines_illegal hpos hl, exec_init_of_lines_illegal hpos' (by rw [hconfig, hl])]

/-! ## A request in progress (R42) -/

theorem step_of_running {s : State} {p : Progress} (h : s.pos = .running p) : step s = .next (s.tick p) := by
  simp [step, State.advance, h]

theorem State.tick_cons (s : State) {p : Progress} {m : Micro} {rest : List Micro} (h : p.todo = m :: rest) :
    s.tick p = { s.perform m with pos := .resume p.request (p.idx + 1) rest } := by
  simp [State.tick, h]

/-- Settles O9, by the position a micro-step leaves: in progress where there are others, `READY` after the last. -/
theorem requestInProgressGoesOnByOneEvent : Obligations.RequestInProgressGoesOnByOneEvent := by
  intro s p m rest hpos htodo
  rw [step_of_running hpos, State.tick_cons s htodo]
  cases rest with
  | nil => rfl
  | cons m' rest => simp [State.perform, Position.resume]

/-! ## Reset (R50) -/

/-- Settles O13: `State.create` says it. -/
theorem resetLeavesTheBlockUninitialised : Obligations.ResetLeavesTheBlockUninitialised :=
  ⟨fun _ => ⟨rfl, rfl, rfl, rfl⟩, rfl, rfl, rfl⟩

/-! ## What a request other than `INIT` changes (R28) -/

theorem displayControl_class {i : Instr} (h : writesDisplayControl i = true) :
    i.isRequest = true ∧ i ≠ .init ∧ writesEntryMode i = false := by
  cases i <;> first | exact Bool.noConfusion h | exact ⟨rfl, Instr.noConfusion, rfl⟩

theorem entryMode_class {i : Instr} (h : writesEntryMode i = true) :
    i.isRequest = true ∧ i ≠ .init ∧ writesDisplayControl i = false := by
  cases i <;> first | exact Bool.noConfusion h | exact ⟨rfl, Instr.noConfusion, rfl⟩

/-- The micro-steps of a display-control request send the flags they write; the bits no code names keep their value
(R23). -/
theorem programOf_displayControl {i : Instr} (h : writesDisplayControl i = true) (s : State) :
    ∃ v, programOf i s = displayControlProgram v s ∧
      v &&& ~~~displayMask s.config.codes = s.displayControlFlags &&& ~~~displayMask s.config.codes := by
  obtain ⟨v, hv⟩ : ∃ v, programOf i s = displayControlProgram v s := by
    cases i <;> first | exact Bool.noConfusion h | exact ⟨_, rfl⟩
  obtain ⟨w, hw, hmask⟩ := writes_displayControl h s
  rw [hv, displayControlProgram, segment_flatMap_writes _ (commandEvents_ne_nil _ _)] at hw
  cases hw
  exact ⟨v, hv, hmask⟩

/-- The micro-steps of an entry-mode request send the flags they write; the bits no code names keep their value
(R24). -/
theorem programOf_entryMode {i : Instr} (h : writesEntryMode i = true) (s : State) :
    ∃ v, programOf i s = entryModeProgram v s ∧
      v &&& ~~~entryMask s.config.codes = s.entryModeFlags &&& ~~~entryMask s.config.codes := by
  obtain ⟨v, hv⟩ : ∃ v, programOf i s = entryModeProgram v s := by
    cases i <;> first | exact Bool.noConfusion h | exact ⟨_, rfl⟩
  obtain ⟨w, hw, hmask⟩ := writes_entryMode h s
  rw [hv, entryModeProgram, segment_flatMap_writes _ (commandEvents_ne_nil _ _)] at hw
  cases hw
  exact ⟨v, hv, hmask⟩

/-- Everything the request `i`, accepted in `READY`, changes between `s` and `t`: its events are out, and the flag
register of its access class (R28) holds the flags it sends. -/
structure RequestEffect (i : Instr) (s t : State) : Prop where
  request : i.isRequest = true
  ne_init : i ≠ .init
  ready : s.pos = .ready
  eq : t = ({ s with
    displayControlFlags := t.displayControlFlags
    entryModeFlags := t.entryModeFlags } : State).emitAll (eventsOf i s)
  displayControl_kept : writesDisplayControl i = false → t.displayControlFlags = s.displayControlFlags
  displayControl_sent : writesDisplayControl i = true →
    programOf i s = displayControlProgram t.displayControlFlags s
  displayControl_unnamed : t.displayControlFlags &&& ~~~displayMask s.config.codes =
    s.displayControlFlags &&& ~~~displayMask s.config.codes
  entryMode_kept : writesEntryMode i = false → t.entryModeFlags = s.entryModeFlags
  entryMode_sent : writesEntryMode i = true → programOf i s = entryModeProgram t.entryModeFlags s
  entryMode_unnamed : t.entryModeFlags &&& ~~~entryMask s.config.codes =
    s.entryModeFlags &&& ~~~entryMask s.config.codes

theorem State.performAll_displayControlProgram (s : State) (v : Byte) :
    s.performAll (displayControlProgram v s) =
      ({ s with displayControlFlags := v } : State).emitAll ((displayControlProgram v s).map Micro.event) := by
  rw [displayControlProgram, State.performAll_segment _ _ (commandEvents_ne_nil _ _), segment_map_event]
  rfl

theorem State.performAll_entryModeProgram (s : State) (v : Byte) :
    s.performAll (entryModeProgram v s) =
      ({ s with entryModeFlags := v } : State).emitAll ((entryModeProgram v s).map Micro.event) := by
  rw [entryModeProgram, State.performAll_segment _ _ (commandEvents_ne_nil _ _), segment_map_event]
  rfl

theorem State.performAll_of_no_writes {s : State} {todo : List Micro} (h : todo.flatMap Micro.writes = []) :
    s.performAll todo = s.emitAll (todo.map Micro.event) := by
  rw [State.performAll_eq, h]
  rfl

/-- Accepted by an idle block, a request other than `INIT` has its effect, by the three access classes of R28. -/
theorem exec_request_effect {i : Instr} {s t : State} (hr : i.isRequest = true) (hi : i ≠ .init)
    (hn : ∀ p, s.pos ≠ .running p) (h : exec i s = .next t) : RequestEffect i s t := by
  obtain ⟨hpos, rfl⟩ := exec_request_idle hr hi hn h
  rcases access_class i with hinit | hd | he | ⟨-, hd, he⟩
  · exact absurd hinit hi
  · obtain ⟨-, -, he⟩ := displayControl_class hd
    obtain ⟨v, hp, hv⟩ := programOf_displayControl hd s
    rw [hp, State.performAll_displayControlProgram]
    refine ⟨hr, hi, hpos, ?_, ?_, ?_, ?_, ?_, ?_, ?_⟩ <;> simp [eventsOf, hd, he, hp, hv]
  · obtain ⟨-, -, hd⟩ := entryMode_class he
    obtain ⟨v, hp, hv⟩ := programOf_entryMode he s
    rw [hp, State.performAll_entryModeProgram]
    refine ⟨hr, hi, hpos, ?_, ?_, ?_, ?_, ?_, ?_, ?_⟩ <;> simp [eventsOf, hd, he, hp, hv]
  · rw [State.performAll_of_no_writes (writes_none hi hd he s)]
    refine ⟨hr, hi, hpos, ?_, ?_, ?_, ?_, ?_, ?_, ?_⟩ <;> simp [eventsOf, hd, he]

namespace RequestEffect

variable {i : Instr} {s t : State} (h : RequestEffect i s t)

include h

theorem functionFlags_eq : t.functionFlags = s.functionFlags := by rw [h.eq]; simp

theorem lineCount_eq : t.lineCount = s.lineCount := by rw [h.eq]; simp

theorem rowOffsets_eq : t.rowOffsets = s.rowOffsets := by rw [h.eq]; simp

theorem config_eq : t.config = s.config := by rw [h.eq]; simp

theorem pos_eq : t.pos = s.pos := by rw [h.eq]; simp

theorem inbox_eq : t.inbox = s.inbox := by rw [h.eq]; simp

theorem lines_eq : t.lines = linesAfter s.lines (eventsOf i s) := by rw [h.eq]; simp

theorem trace_eq : t.trace = s.trace ++ eventsOf i s := by rw [h.eq]; simp

theorem bus_eq : t.bus = s.bus := by simp [State.bus, h.config_eq, h.functionFlags_eq]

/-- A request other than `INIT` frames its events with the flags it finds. -/
theorem framed : Framed s.bus (eventsOf i s) := by
  simpa [busOf, h.ne_init] using framed_eventsOf i s

theorem level_of_undriven (l : Line) (hl : drives s.bus l = false) : t.level l = s.level l := by
  rw [State.level_eq, State.level_eq, h.lines_eq, h.framed.undriven hl]

end RequestEffect

/-- Settles O52, by the effect of a request that is in neither of the two classes that write flags. -/
theorem frameOfRegisterFreeRequests : Obligations.FrameOfRegisterFreeRequests := by
  intro i s t hr hi hd he hn hexec
  have h := exec_request_effect hr hi hn hexec
  exact ⟨h.functionFlags_eq, h.displayControl_kept hd, h.entryMode_kept he, h.lineCount_eq, h.rowOffsets_eq,
    h.config_eq, h.pos_eq, h.inbox_eq, h.level_of_undriven⟩

/-- Settles O53, by the effect of a request of the display-control class. -/
theorem frameOfDisplayControlRequests : Obligations.FrameOfDisplayControlRequests := by
  intro i s t hd hn hexec
  obtain ⟨hr, hi, he⟩ := displayControl_class hd
  have h := exec_request_effect hr hi hn hexec
  exact ⟨h.functionFlags_eq, h.entryMode_kept he, h.lineCount_eq, h.rowOffsets_eq, h.config_eq, h.pos_eq, h.inbox_eq,
    h.displayControl_unnamed, h.level_of_undriven⟩

/-- Settles O54, by the effect of a request of the entry-mode class. -/
theorem frameOfEntryModeRequests : Obligations.FrameOfEntryModeRequests := by
  intro i s t he hn hexec
  obtain ⟨hr, hi, hd⟩ := entryMode_class he
  have h := exec_request_effect hr hi hn hexec
  exact ⟨h.functionFlags_eq, h.displayControl_kept hd, h.lineCount_eq, h.rowOffsets_eq, h.config_eq, h.pos_eq,
    h.inbox_eq, h.entryMode_unnamed, h.level_of_undriven⟩

/-! ## What `INIT` changes (42_init_sequencer.md R160) -/

theorem exec_init_pos {s t : State} (h : exec .init s = .next t) : t.pos = .ready := by
  obtain ⟨-, -, rfl⟩ := exec_init_next h
  rfl

theorem exec_init_trace {s t : State} (h : exec .init s = .next t) :
    t.trace = s.trace ++ (initProgram s.config).map Micro.event := by
  obtain ⟨-, -, rfl⟩ := exec_init_next h
  simp

theorem exec_init_lines {s t : State} (h : exec .init s = .next t) :
    t.lines = linesAfter s.lines ((initProgram s.config).map Micro.event) := by
  obtain ⟨-, -, rfl⟩ := exec_init_next h
  simp

/-- Settles O55, by the framing of the events of `INIT`. -/
theorem frameOfInit : Obligations.FrameOfInit := by
  intro s t h
  refine ⟨exec_config h, ?_, ?_, fun l hl => ?_⟩
  · obtain ⟨-, -, rfl⟩ := exec_init_next h
    simp
  · exact ⟨_, (exec_init_trace h).symm⟩
  · rw [State.level_eq, State.level_eq, exec_init_lines h, (framed_initProgram s.config).undriven hl]

/-- `INIT` ends with `E`, `RS` and a wired `RW` low, whatever the levels before (R166, R173). -/
theorem commandSelected_init (c : Config) (ls : Lines) :
    CommandSelected (initBus c) (linesAfter ls ((initProgram c).map Micro.event)) := by
  have hevents : (initProgram c).map Micro.event
      = (initPowerOn c ++ initForceLow c) ++ (initHandshake c ++ initCommandEvents c) := by
    simp only [initProgram_events, initCommandEvents, List.append_assoc]
  rw [hevents, linesAfter_append]
  exact ((latches_initHandshake c).append (latches_initCommandEvents c) _ (commandSelected_initForceLow c ls)).2

end Sys2Proof.Machine
end

section
/-! Proofs of the statements about the invariant of the machine (10_state.md R22 to R27, R34, R35;
40_bus_transfer.md R138). -/

namespace Sys2Proof.Machine

open Sys2Proof.Safety

/-! ## The parts of the invariant -/

/-- On an idle block the invariant speaks of the registers, the trace and, in `READY`, the lines. -/
theorem inv_iff_of_idle {s : State} (hn : ∀ p, s.pos ≠ .running p) :
    Inv s ↔ ReservedClear s ∧ (∀ e ∈ s.trace, eventAllowed s.config e = true) ∧
      (s.pos = .ready → Configured s) := by
  rcases s.pos_cases with hs | ⟨p, hs⟩ | hs
  · simp [positionSound, pendingSteps, State.settle_of_uninit hs, hs]
  · exact absurd hs (hn p)
  · simp [positionSound, pendingSteps, State.settle_of_ready hs, hs]

theorem State.idle_of_ready {s : State} (h : s.pos = .ready) (p : Progress) : s.pos ≠ .running p := by simp [h]

theorem State.create_idle (c : Config) (p : Progress) : (State.create c).pos ≠ .running p := by simp [State.create]

theorem inv_create (c : Config) : Inv (State.create c) := by
  rw [inv_iff_of_idle (State.create_idle c)]
  simp [State.create, ReservedClear]

/-- Settles O14: nothing is named by a code, emitted or in progress yet. -/
theorem resetMeetsTheInvariant : Obligations.ResetMeetsTheInvariant := ⟨inv_create, inv_create sourceConfig⟩

/-- Framed with the configured width and wiring, every event is allowed (R34, R35). -/
theorem Framed.allowed {c : Config} {b : BusParams} {es : List Event} (h : Framed b es)
    (hd : b.dl = decide (c.bitMode = .bit8)) (hw : b.rwWired = c.rwWired) (hb : b.nibbleBase = c.nibbleBase) :
    ∀ e ∈ es, eventAllowed c e = true := by
  intro e he
  cases e with
  | delay n => rfl
  | setLine l v => rw [eventAllowed_eq_drives c b hd hw hb]; exact h.drives_of_mem he

/-- A legal register write keeps the bits no code names at 0 (R22 to R24). -/
theorem State.write_reservedClear {s : State} {w : RegWrite} (hw : writeLegal s.config.codes w = true)
    (h : ReservedClear s) : ReservedClear (s.write w) := by
  obtain ⟨hff, hdc, hem⟩ := h
  cases w with
  | functionFlags v => exact ⟨eq_of_beq hw, hdc, hem⟩
  | displayControlFlags v => exact ⟨hff, eq_of_beq hw, hem⟩
  | entryModeFlags v => exact ⟨hff, hdc, eq_of_beq hw⟩
  | lineCount v => exact ⟨hff, hdc, hem⟩
  | rowOffset i v => exact ⟨hff, hdc, hem⟩

theorem State.writeAll_reservedClear {s : State} {ws : List RegWrite}
    (hws : ws.all (writeLegal s.config.codes) = true) (h : ReservedClear s) : ReservedClear (s.writeAll ws) := by
  induction ws generalizing s with
  | nil => exact h
  | cons w ws ih =>
    rw [List.all_cons, Bool.and_eq_true] at hws
    exact ih (s := s.write w) (by rw [State.write_config]; exact hws.2) (State.write_reservedClear hws.1 h)

theorem pendingSteps_resume (s : State) (i : Instr) (idx : Nat) (todo : List Micro) :
    pendingSteps { s with pos := .resume i idx todo } = todo := by
  cases todo <;> rfl

theorem positionSound_resume (s : State) {i : Instr} (hi : i.isRequest = true) (idx : Nat) (todo : List Micro) :
    positionSound { s with pos := .resume i idx todo } = true := by
  cases todo with
  | nil => rfl
  | cons m rest => simp [positionSound, Position.resume, hi]

/-! ## Each kind of step keeps the invariant -/

/-- Inside a request: the micro-step done was legal, those to come still are, and the request ends where it did. -/
theorem tick_inv {s : State} {p : Progress} (hpos : s.pos = .running p) (h : Inv s) : Inv (s.tick p) := by
  obtain ⟨hclear, hsound, htrace, hpending, hend⟩ := h
  have hsettle := State.settle_tick hpos
  simp only [positionSound, hpos, Bool.and_eq_true] at hsound
  simp only [pendingSteps, hpos] at hpending
  obtain ⟨hrequest, htodo⟩ := hsound
  cases hp : p.todo with
  | nil => simp [hp] at htodo
  | cons m rest =>
    rw [hp] at hpending
    obtain ⟨⟨hwrites, hevent⟩, hrest⟩ := List.forall_mem_cons.mp hpending
    rw [State.tick_cons s hp] at hsettle ⊢
    refine ⟨State.writeAll_reservedClear hwrites hclear, positionSound_resume _ hrequest _ _, ?_, ?_, ?_⟩
    · simpa [or_imp, forall_and, hevent] using htrace
    · rw [pendingSteps_resume]
      simpa using hrest
    · rw [hsettle]
      exact hend

/-- The flags `INIT` leaves have no bit that no code names (R22 to R24). -/
theorem exec_init_reservedClear {s t : State} (h : exec .init s = .next t) : ReservedClear t := by
  have hself : ∀ x y : Byte, x &&& ~~~(x ||| y) = 0x00#8 := by
    intro x y
    ext j hj
    cases hx : x[j] <;> simp [hx]
  obtain ⟨-, -, rfl⟩ := exec_init_next h
  simp [ReservedClear, State.performAll_initProgram, initFunctionFlags_reserved, displayMask, entryMask, hself,
    BitVec.or_assoc]

/-- `INIT` leaves its registers as it wrote them, and `E` and a wired `RW` low (R138, R173). -/
theorem exec_init_configured {s t : State} (h : exec .init s = .next t) : Configured t := by
  have hselected := commandSelected_init s.config s.lines
  rw [← exec_init_lines h] at hselected
  obtain ⟨hE, -, hrw⟩ := hselected
  have hc := exec_config h
  refine ⟨?_, ?_, ?_, ?_, hE, ?_⟩
  · rw [hc, exec_init_functionFlags h]
  · rw [hc]; exact (exec_init_next h).2.1
  · rw [hc]
    obtain ⟨-, -, rfl⟩ := exec_init_next h
    simp [State.performAll_initProgram]
  · intro i
    rw [hc]
    obtain ⟨-, -, rfl⟩ := exec_init_next h
    fin_cases i <;> simp [State.performAll_initProgram, rowOffset]
  · rw [hc]; exact hrw

theorem exec_init_inv {s t : State} (hs : Inv s) (h : exec .init s = .next t) : Inv t := by
  obtain ⟨-, -, htrace, -, -⟩ := hs
  rw [inv_iff_of_idle (State.idle_of_ready (exec_init_pos h))]
  refine ⟨exec_init_reservedClear h, ?_, fun _ => exec_init_configured h⟩
  have hallowed := (framed_initProgram s.config).allowed (initBus_dl s.config) rfl rfl
  rw [exec_config h, exec_init_trace h]
  exact List.forall_mem_append.mpr ⟨htrace, hallowed⟩

/-- In `READY` transfers are framed by the configured width (R22, R27). -/
theorem Configured.bus_dl {s : State} (h : Configured s) : s.bus.dl = decide (s.config.bitMode = .bit8) := by
  obtain ⟨hff, -⟩ := h
  simp only [State.bus, hff, initFunctionFlags_dl]

namespace RequestEffect

variable {i : Instr} {s t : State} (h : RequestEffect i s t)

include h

theorem reservedClear (hs : ReservedClear s) : ReservedClear t := by
  obtain ⟨hff, hdc, hem⟩ := hs
  simp only [ReservedClear, h.config_eq, h.functionFlags_eq, h.displayControl_unnamed, h.entryMode_unnamed]
  exact ⟨hff, hdc, hem⟩

/-- The registers `INIT` wrote are not written again, and framed events leave `E` and `RW` low. -/
theorem configured (hs : Configured s) : Configured t := by
  obtain ⟨hff, hlegal, hlc, hro, hE, hrw⟩ := hs
  simp only [Configured, State.level_eq, h.config_eq, h.functionFlags_eq, h.lineCount_eq, h.rowOffsets_eq, h.lines_eq]
  exact ⟨hff, hlegal, hlc, hro, h.framed.e_low hE, fun hw => h.framed.rw_low (hrw hw)⟩

theorem inv (hs : Inv s) : Inv t := by
  obtain ⟨hclear, htrace, hconf⟩ := (inv_iff_of_idle (State.idle_of_ready h.ready)).mp hs
  rw [inv_iff_of_idle (State.idle_of_ready (h.pos_eq.trans h.ready))]
  refine ⟨h.reservedClear hclear, ?_, fun _ => h.configured (hconf h.ready)⟩
  have hallowed := h.framed.allowed (c := s.config) (Configured.bus_dl (hconf h.ready)) rfl rfl
  rw [h.config_eq, h.trace_eq]
  exact List.forall_mem_append.mpr ⟨htrace, hallowed⟩

end RequestEffect

/-! ## What the decoder takes from the host's byte stream is a request (30_encoding.md R90 to R92) -/

theorem decodeZ_isRequest {j : Instr} (hj : j.isRequest = true) {bs rest : List Byte} {i : Instr}
    (h : decodeZ j bs = .ok i rest) : i.isRequest = true := by
  cases h
  exact hj

theorem decodeB1_isRequest {mk : Byte → Instr} (hmk : ∀ v, (mk v).isRequest = true)
    {bs rest : List Byte} {i : Instr} (h : decodeB1 mk bs = .ok i rest) : i.isRequest = true := by
  unfold decodeB1 at h
  split at h <;> cases h
  exact hmk _

theorem decodeB2_isRequest {mk : Byte → Byte → Instr} (hmk : ∀ v w, (mk v w).isRequest = true)
    {bs rest : List Byte} {i : Instr} (h : decodeB2 mk bs = .ok i rest) : i.isRequest = true := by
  unfold decodeB2 at h
  split at h <;> cases h
  exact hmk _ _

theorem decodeB9_isRequest {mk : Byte → Vector Byte 8 → Instr} (hmk : ∀ v g, (mk v g).isRequest = true)
    {bs rest : List Byte} {i : Instr} (h : decodeB9 mk bs = .ok i rest) : i.isRequest = true := by
  unfold decodeB9 at h
  split at h <;> cases h
  exact hmk _ _

theorem decodeS_isRequest {term : Byte} {mk : List Byte → Instr} (hmk : ∀ text, (mk text).isRequest = true)
    {bs rest : List Byte} {i : Instr} (h : decodeS term mk bs = .ok i rest) : i.isRequest = true := by
  unfold decodeS at h
  split at h <;> cases h
  exact hmk _

theorem decode_isRequest {term : Byte} {bs rest : List Byte} {i : Instr} (h : decode term bs = .ok i rest) :
    i.isRequest = true := by
  cases bs with
  | nil => cases h
  | cons b bs =>
    rw [decode] at h
    split at h
    all_goals first
      | exact decodeZ_isRequest rfl h
      | exact decodeB1_isRequest (fun _ => rfl) h
      | exact decodeB2_isRequest (fun _ _ => rfl) h
      | exact decodeB9_isRequest (fun _ _ => rfl) h
      | exact decodeS_isRequest (fun _ => rfl) h
      | cases h

/-- A request accepted by an idle block keeps the invariant, `INIT` or another. -/
theorem exec_request_inv {i : Instr} {s t : State} (hr : i.isRequest = true) (hn : ∀ p, s.pos ≠ .running p)
    (hs : Inv s) (h : exec i s = .next t) : Inv t := by
  by_cases hi : i = .init
  · subst hi
    exact exec_init_inv hs h
  · exact (exec_request_effect hr hi hn h).inv hs

/-- The invariant does not speak of the bytes offered. -/
theorem inv_withInbox {s : State} (hn : ∀ p, s.pos ≠ .running p) (hs : Inv s) (bs : List Byte) :
    Inv { s with inbox := bs } :=
  (inv_iff_of_idle (s := { s with inbox := bs }) hn).mpr ((inv_iff_of_idle hn).mp hs)

/-- Settles O15, by what a step can be: a micro-step of the request in progress, the request taken from the bytes
offered, or nothing. -/
theorem stepKeepsTheInvariant : Obligations.StepKeepsTheInvariant := by
  intro s t hs h
  rw [step] at h
  rcases State.advance_cases exec s with
    ⟨p, hpos, he⟩ | ⟨hn, ⟨i, rest, hd, he⟩ | ⟨-, he⟩ | ⟨b, -, he⟩ | ⟨-, he⟩⟩ <;> rw [he] at h
  · cases h
    exact tick_inv hpos hs
  · exact exec_request_inv (s := { s with inbox := rest }) (decode_isRequest hd) hn (inv_withInbox hn hs rest) h
  · cases h
    exact hs
  · cases h
  · cases h

/-! ## The unused lines (R34, R35) -/

/-- A step adds events at the end of the trace, and the latches are what they make of them. -/
theorem step_emits {s t : State} (h : step s = .next t) :
    ∃ es, t.trace = s.trace ++ es ∧ t.lines = linesAfter s.lines es := by
  rw [step] at h
  rcases State.advance_cases exec s with
    ⟨p, hpos, he⟩ | ⟨hn, ⟨i, rest, hd, he⟩ | ⟨-, he⟩ | ⟨b, -, he⟩ | ⟨-, he⟩⟩ <;> rw [he] at h
  · cases h
    cases hp : p.todo with
    | nil => exact ⟨[], by simp [State.tick, hp], by simp [State.tick, hp]⟩
    | cons m rest => exact ⟨[m.event], by simp [State.tick_cons s hp], by simp [State.tick_cons s hp]⟩
  · obtain ⟨es, htrace, hlines, -⟩ := (lineLevelsAreNeverRead i { s with inbox := rest } s.lines).1 t h
    exact ⟨es, htrace, hlines⟩
  · cases h
    exact ⟨[], by simp, rfl⟩
  · cases h
  · cases h

/-- A line that no event of the list may write keeps its level. -/
theorem levelOf_of_not_allowed {c : Config} {l : Line} (hl : eventAllowed c (.setLine l true) = false)
    {es : List Event} (hes : ∀ e ∈ es, eventAllowed c e = true) (ls : Lines) :
    levelOf (linesAfter ls es) l = levelOf ls l := by
  induction es generalizing ls with
  | nil => rfl
  | cons e es ih =>
    obtain ⟨he, hrest⟩ := List.forall_mem_cons.mp hes
    rw [linesAfter_cons, ih hrest]
    cases e with
    | delay n => rfl
    | setLine k v =>
      refine levelOf_set_ne ls v ?_
      rintro rfl
      have hsame : eventAllowed c (.setLine k true) = eventAllowed c (.setLine k v) := by cases k <;> rfl
      rw [hsame, he] at hl
      cases hl

/-- Settles O19: the invariant after the step says that its events are allowed. -/
theorem unusedLinesAreNeverWritten : Obligations.UnusedLinesAreNeverWritten := by
  intro s t l hs h hl
  obtain ⟨es, htrace, hlines⟩ := step_emits h
  obtain ⟨-, -, hallowed, -, -⟩ := stepKeepsTheInvariant s t hs h
  rw [htrace, step_config h] at hallowed
  rw [State.level_eq, State.level_eq, hlines]
  exact levelOf_of_not_allowed hl (fun e he => hallowed e (List.mem_append_right _ he)) s.lines

end Sys2Proof.Machine
end

section
/-! Proofs of the statements about the flag registers and the bytes on the bus (10_state.md R22, R27): the
composite commands and the framing of a byte. -/

namespace Sys2Proof.Machine

open Sys2Proof.Safety

/-! ## The flags and the bus agree (43_display_ops.md R211) -/

theorem lastCommand_append (pick : Byte → Bool) (before : Byte) (xs ys : List (Level × Byte)) :
    lastCommand pick before (xs ++ ys) = lastCommand pick (lastCommand pick before xs) ys :=
  List.foldl_append

@[simp] theorem lastCommand_nil (pick : Byte → Bool) (before : Byte) : lastCommand pick before [] = before := rfl

@[simp] theorem lastCommand_data (pick : Byte → Bool) (before v : Byte) (bytes : List (Level × Byte)) :
    lastCommand pick before ((true, v) :: bytes) = lastCommand pick before bytes := rfl

@[simp] theorem lastCommand_command (pick : Byte → Bool) (before v : Byte) (bytes : List (Level × Byte)) :
    lastCommand pick before ((false, v) :: bytes) = lastCommand pick (if pick v then v else before) bytes := rfl

/-- Where no command byte is picked out, the last one is the one before. -/
theorem lastCommand_of_forall {pick : Byte → Bool} {bytes : List (Level × Byte)}
    (h : ∀ v, (false, v) ∈ bytes → pick v = false) (before : Byte) : lastCommand pick before bytes = before := by
  induction bytes with
  | nil => rfl
  | cons x bytes ih =>
    have htail := ih fun v hv => h v (List.mem_cons_of_mem _ hv)
    obtain ⟨rs, v⟩ := x
    cases rs with
    | true => simpa using htail
    | false => simpa [h v List.mem_cons_self] using htail

/-- What a byte is under a mask it is under a part of that mask. -/
theorem Byte.and_of_and {v m c n : Byte} (h : v &&& m = c) (hn : m &&& n = n) : v &&& n = c &&& n := by
  rw [← h, BitVec.and_assoc, hn]

/-- A byte with one of its bits 7 to 4 set is neither a DISPLAYCONTROL nor an ENTRYMODESET (30_encoding.md R109). -/
theorem not_flagCommand_of_high {v : Byte} (h : v &&& 0xF0#8 ≠ 0x00#8) :
    isDisplayControl v = false ∧ isEntryModeSet v = false := by
  constructor <;> refine Bool.eq_false_iff.mpr fun hv => h ?_
  · exact Byte.and_of_and (eq_of_beq hv) (n := 0xF0#8) (by decide)
  · exact Byte.and_of_and (eq_of_beq hv) (n := 0xF0#8) (by decide)

theorem isDisplayControl_or {v : Byte} (h : v &&& 0xF8#8 = 0x00#8) : isDisplayControl (0x08#8 ||| v) = true := by
  rw [isDisplayControl, Byte.or_and, h]
  decide

theorem isEntryModeSet_or {v : Byte} (h : v &&& 0xFC#8 = 0x00#8) : isEntryModeSet (0x04#8 ||| v) = true := by
  rw [isEntryModeSet, Byte.or_and, h]
  decide

/-- Bit 3 tells a DISPLAYCONTROL from an ENTRYMODESET (R109). -/
theorem not_isEntryModeSet_of_isDisplayControl {v : Byte} (h : isDisplayControl v = true) :
    isEntryModeSet v = false := by
  refine Bool.eq_false_iff.mpr fun he => ?_
  have hd3 := Byte.and_of_and (eq_of_beq h) (n := 0x08#8) (by decide)
  have he3 := Byte.and_of_and (eq_of_beq he) (n := 0x08#8) (by decide)
  exact absurd (hd3.symm.trans he3) (by decide)

/-- No command byte of a request that writes no flags, `CMD` aside, is a DISPLAYCONTROL or an ENTRYMODESET. -/
theorem requestTransfers_not_flagCommand {i : Instr} {s : State} (hcmd : ∀ value, i ≠ .cmd value)
    (hd : writesDisplayControl i = false) (he : writesEntryMode i = false) (hcodes : s.config.codes = hd44780Codes)
    {v : Byte} (hv : (false, v) ∈ requestTransfers i s) :
    isDisplayControl v = false ∧ isEntryModeSet v = false := by
  have hone : ∀ c : Byte, (false, v) ∈ [(false, c)] → v = c := by simp
  have hor : ∀ c x : Byte, c &&& 0xF0#8 ≠ 0x00#8 → (c ||| x) &&& 0xF0#8 ≠ 0x00#8 := by
    intro c x hc h
    rw [Byte.or_and, BitVec.or_eq_zero_iff] at h
    exact hc h.1
  cases i <;> simp only [requestTransfers, hcodes] at hv
  case cmd value => exact absurd rfl (hcmd value)
  case clear => obtain rfl := hone _ hv; decide
  case home => obtain rfl := hone _ hv; decide
  case scrollL => obtain rfl := hone _ hv; decide
  case scrollR => obtain rfl := hone _ hv; decide
  case setCursor col row =>
    obtain rfl := hone _ hv
    exact not_flagCommand_of_high (hor _ _ (by decide))
  case createChar slot glyph =>
    obtain rfl := hone _ (by simpa using hv)
    exact not_flagCommand_of_high (hor _ _ (by decide))
  all_goals first | exact Bool.noConfusion hd | exact Bool.noConfusion he | simp at hv

/-- The bytes that the words of command transfers form (R137). -/
theorem receivedBytes_commands (b : BusParams) (vs : List Byte) :
    receivedBytes (vs.flatMap fun v => transferWords b v .command) = vs.map fun v => (false, v) := by
  induction vs with
  | nil => rfl
  | cons v vs ih => rw [List.flatMap_cons, receivedBytes_transferWords, ih]; rfl

/-- The handshake is whole bytes: what follows it is received as if by itself. -/
theorem receivedBytes_handshake (c : Config) :
    ∃ handshake, ∀ rest, receivedBytes (initHandshakeWords c ++ rest) = handshake ++ receivedBytes rest := by
  cases h : c.bitMode with
  | bit4 =>
    exact ⟨[(false, 0x33#8), (false, 0x32#8)], fun rest => by
      simp [initHandshakeWords, h, commandWord, receivedBytes]⟩
  | bit8 =>
    exact ⟨List.replicate 3 (false, initFunctionSet c), fun rest => by
      simp [initHandshakeWords, h, commandWord, receivedBytes, List.replicate]⟩

/-- What `INIT`, begun with `E` low, sends: its handshake and then its four command bytes (R174). -/
theorem sentBytes_init {s : State} (hE : s.level .e = false) :
    ∃ handshake, sentBytes (initBus s.config) s.lines (eventsOf .init s)
      = handshake ++ (initCommandBytes s.config).map fun v => (false, v) := by
  obtain ⟨handshake, h⟩ := receivedBytes_handshake s.config
  refine ⟨handshake, ?_⟩
  simp [sentBytes, latchedWords_init, hE, h, receivedBytes_commands]

/-- `INIT` ends by sending both composite commands with the flags it leaves. -/
theorem flagsAgree_init {s t : State} (hcodes : s.config.codes = hd44780Codes) (hE : s.level .e = false)
    (h : exec .init s = .next t) (before : Byte) :
    lastCommand isDisplayControl before (sentBytes t.bus s.lines (eventsOf .init s))
      = 0x08#8 ||| t.displayControlFlags ∧
    lastCommand isEntryModeSet before (sentBytes t.bus s.lines (eventsOf .init s)) = 0x04#8 ||| t.entryModeFlags := by
  obtain ⟨handshake, hsent⟩ := sentBytes_init hE
  have hflags : t.displayControlFlags = 0x04#8 ∧ t.entryModeFlags = 0x02#8 := by
    obtain ⟨-, -, rfl⟩ := exec_init_next h
    simp [State.performAll_initProgram, hcodes, hd44780Codes]
  obtain ⟨hdc, hem⟩ := hflags
  rw [exec_init_bus h, hsent, hdc, hem]
  have hbytes : initCommandBytes s.config = [initFunctionSet s.config, 0x0C#8, 0x01#8, 0x06#8] := by
    simp only [initCommandBytes, hcodes]
    rfl
  rw [hbytes, lastCommand_append, lastCommand_append]
  exact ⟨rfl, rfl⟩

/-- A request other than `INIT` and `CMD` sends the composite command of the flags it writes, and no other. -/
theorem flagsAgree_request {i : Instr} {s t : State} (h : RequestEffect i s t) (hcmd : ∀ value, i ≠ .cmd value)
    (hcodes : s.config.codes = hd44780Codes) (hE : s.level .e = false) (hclear : ReservedClear s) :
    lastCommand isDisplayControl (0x08#8 ||| s.displayControlFlags) (sentBytes t.bus s.lines (eventsOf i s))
      = 0x08#8 ||| t.displayControlFlags ∧
    lastCommand isEntryModeSet (0x04#8 ||| s.entryModeFlags) (sentBytes t.bus s.lines (eventsOf i s))
      = 0x04#8 ||| t.entryModeFlags := by
  obtain ⟨-, hdc, hem⟩ := hclear
  have hdc' := h.displayControl_unnamed.trans hdc
  have hem' := h.entryMode_unnamed.trans hem
  rw [hcodes] at hdc' hem'
  rw [h.bus_eq]
  rcases access_class i with hinit | hd | he | ⟨-, hd, he⟩
  · exact absurd hinit h.ne_init
  · obtain ⟨-, -, he⟩ := displayControl_class hd
    have hsent : sentBytes s.bus s.lines (eventsOf i s) = [(false, 0x08#8 ||| t.displayControlFlags)] := by
      rw [eventsOf, h.displayControl_sent hd, displayControlProgram, hcodes]
      exact sentBytes_segment_transferByte _ _ _ .command hE
    have hpick := isDisplayControl_or hdc'
    simp [hsent, hpick, not_isEntryModeSet_of_isDisplayControl hpick, h.entryMode_kept he]
  · obtain ⟨-, -, hd⟩ := entryMode_class he
    have hsent : sentBytes s.bus s.lines (eventsOf i s) = [(false, 0x04#8 ||| t.entryModeFlags)] := by
      rw [eventsOf, h.entryMode_sent he, entryModeProgram, hcodes]
      exact sentBytes_segment_transferByte _ _ _ .command hE
    have hpick := isEntryModeSet_or hem'
    have hnot : isDisplayControl (0x04#8 ||| t.entryModeFlags) = false :=
      Bool.eq_false_iff.mpr fun hdisplay => by
        rw [not_isEntryModeSet_of_isDisplayControl hdisplay] at hpick
        cases hpick
    simp [hsent, hpick, hnot, h.displayControl_kept hd]
  · have hnone := fun v => requestTransfers_not_flagCommand (s := s) (v := v) hcmd hd he hcodes
    rw [everyRequestSendsItsBytes i s h.request h.ne_init hE, h.displayControl_kept hd, h.entryMode_kept he,
      lastCommand_of_forall fun v hv => (hnone v hv).1, lastCommand_of_forall fun v hv => (hnone v hv).2]
    exact ⟨rfl, rfl⟩

/-- Settles O46, by the access class of the request (`flagsAgree_request`) and the bytes `INIT` sends
(`flagsAgree_init`). -/
theorem flagsAndBusAgree : Obligations.FlagsAndBusAgree := by
  rintro i s t hr hcmd hn hcodes hE hclear h bytes rfl
  refine ⟨fun hi => flagsAgree_request (exec_request_effect hr hi hn h) hcmd hcodes hE hclear, ?_⟩
  rintro rfl before
  exact flagsAgree_init hcodes hE h before

/-! ## The framing of a byte (40_bus_transfer.md R136) -/

/-- With the numbers of the spec DL is bit 4 of `functionFlags` (R22). -/
theorem flagDL_hd44780 (ff : Byte) : flagDL hd44780Codes ff = ff.getLsbD 4 := by
  have hbit : hd44780Codes.f8Bit = BitVec.twoPow 8 4 := by decide
  rw [flagDL, hbit, BitVec.and_twoPow]
  cases ff.getLsbD 4 <;> rfl

theorem transferWords_rs (b : BusParams) (v : Byte) (mode : RegSel) :
    ∀ w ∈ transferWords b v mode, w.rs = modeLevel mode := by
  cases hd : b.dl <;> simp [transferWords, hd]

theorem modeLevel_eq (mode : RegSel) : modeLevel mode = decide (mode = .data) := by
  cases mode <;> rfl

/-- Settles O24, by the laws of one transfer in the two framings. -/
theorem transferByteFramesTheByte : Obligations.TransferByteFramesTheByte := by
  intro b v mode ls
  refine ⟨rfl, length_transferByte b v mode, fun ht => ?_, fun hE => ?_,
    fun s => ⟨rfl, fun hcodes => ?_, rfl, rfl, rfl⟩⟩
  · rw [minDuration_transferByte, transferTime, ht]
    cases b.dl <;> rfl
  · rw [latchedWords_transferByte b v mode hE, ← modeLevel_eq]
    refine ⟨?_, transferWords_rs b v mode⟩
    cases hd : b.dl <;> simp [transferWords, hd]
  · rw [State.bus, hcodes, flagDL_hd44780]

/-! ## Bus commands run by themselves (41_dispatcher.md R152) -/

/-- A bus command sends its byte (30_encoding.md R109), in every phase. -/
theorem exec_busCommand {i : Instr} (h : i.isBusCommand = true) (s : State) :
    ∃ v, busByte s.config.codes i = some v ∧ exec i s = .next (s.emitAll (commandEvents s.bus v)) := by
  have sends : ∀ v w : Byte, v = w → busByte s.config.codes i = some v → exec i s = s.issueCommand w →
      ∃ v, busByte s.config.codes i = some v ∧ exec i s = .next (s.emitAll (commandEvents s.bus v)) := by
    rintro v _ rfl hbyte hexec
    exact ⟨v, hbyte, hexec⟩
  cases i <;> first
    | exact Bool.noConfusion h
    | exact sends _ _ (by simp only [composite, BitVec.or_assoc]) rfl rfl

/-- The events of a command sent from `s`: framed by the DL flag of the flags `s` holds (R22, R136). -/
theorem commandEvents_bus (s : State) (v : Byte) :
    commandEvents s.bus v = selectRegister s.bus .command ++
      (if s.functionFlags &&& s.config.codes.f8Bit = 0x00#8 then
        drive4 s.bus (v >>> 4) ++ drive4 s.bus (v &&& 0x0F#8)
      else drive8 s.bus v) := by
  have hdl : s.bus.dl = (s.functionFlags &&& s.config.codes.f8Bit != 0x00#8) := rfl
  rw [commandEvents, transferByte, hdl]
  by_cases h : s.functionFlags &&& s.config.codes.f8Bit = 0x00#8
  · simp [h, highNibble, lowNibble]
  · simp [h]

/-- Settles O51: the framing is that of the flags held, 0x00 right after reset. -/
theorem busCommandsBeforeInitFollowTheHeldFlags : Obligations.BusCommandsBeforeInitFollowTheHeldFlags := by
  intro i hi
  refine ⟨fun s _ => ?_, fun c => ?_⟩
  · obtain ⟨v, hbyte, hexec⟩ := exec_busCommand hi s
    exact ⟨v, hbyte, by rw [hexec, commandEvents_bus]⟩
  · obtain ⟨v, hbyte, hexec⟩ := exec_busCommand hi (State.create c)
    have hff : (State.create c).functionFlags &&& (State.create c).config.codes.f8Bit = 0x00#8 := BitVec.zero_and
    exact ⟨v, hbyte, by rw [hexec, commandEvents_bus, if_pos hff, List.append_assoc]⟩

end Sys2Proof.Machine
end

section
/-! Proofs of the statements about the address spaces and the order of the lines (20_memory.md R61): what a bus row
leaves as it is. -/

namespace Sys2Proof.Machine

open Sys2Proof.Safety

/-- A 4-line transfer leaves every line the bus does not drive, whatever the DL flag: under 8-bit framing a raw nibble
is no framed piece of the protocol, but its four lines are among the eight driven (20_memory.md R61). -/
theorem levelOf_drive4_undriven (b : BusParams) (n : Byte) {l : Line} (hl : drives b l = false) (ls : Lines) :
    levelOf (linesAfter ls (drive4 b n)) l = levelOf ls l := by
  have he : l ≠ .e := by
    rintro rfl
    exact Bool.noConfusion hl
  have hnibble : ∀ i, nibbleLine b.nibbleBase i ≠ l := by
    rintro i rfl
    exact Bool.noConfusion ((drives_nibbleLine b i).symm.trans hl)
  exact levelOf_drive4_other b n ls he hnibble

/-- A bus row that answers has emitted events that leave every line the bus does not drive, and has done nothing else
(41_dispatcher.md R152). -/
theorem exec_busRow_undriven {i : Instr} {s t : State} (hr : i.isRequest = false) (h : exec i s = .next t) :
    ∃ es, t = s.emitAll es ∧ ∀ l, drives s.bus l = false → levelOf (linesAfter s.lines es) l = levelOf s.lines l := by
  obtain ⟨es, ht, ⟨v, rfl⟩ | rfl | rfl⟩ := exec_busRow_next hr h
  · exact ⟨_, ht, fun _ hl => (framed_commandEvents s.bus v).undriven hl s.lines⟩
  · exact ⟨_, ht, fun _ hl => levelOf_drive4_undriven s.bus handshakeNibble3 hl s.lines⟩
  · exact ⟨_, ht, fun _ hl => levelOf_drive4_undriven s.bus handshakeNibble2 hl s.lines⟩

/-- Settles O56: a bus row only emits events, and only on lines the bus drives. -/
theorem frameOfBusRows : Obligations.FrameOfBusRows := by
  intro i s t hr hexec
  obtain ⟨es, rfl, hlines⟩ := exec_busRow_undriven hr hexec
  have htrace : s.trace <+: (s.emitAll es).trace := ⟨es, (State.emitAll_trace s es).symm⟩
  have hlevel : ∀ l, drives s.bus l = false → (s.emitAll es).level l = s.level l := by
    intro l hl
    rw [State.level_eq, State.level_eq, State.emitAll_lines, hlines l hl]
  exact ⟨State.emitAll_functionFlags s es, State.emitAll_displayControlFlags s es, State.emitAll_entryModeFlags s es,
    State.emitAll_lineCount s es, State.emitAll_rowOffsets s es, State.emitAll_config s es, State.emitAll_pos s es,
    State.emitAll_inbox s es, htrace, hlevel⟩

end Sys2Proof.Machine
end

section
/-! Proofs of the statements about the two encodings (30_encoding.md): the request decoder and the request bytes, the
bus decoder and the bytes of the bus rows, and the step on the bytes the host has offered. -/

namespace Sys2Proof.Machine

open Sys2Proof.Safety

/-! ## What each format reads (R92) -/

theorem decodeB1_eq_ok {mk : Byte → Instr} {bs rest : List Byte} {i : Instr} :
    decodeB1 mk bs = .ok i rest ↔ ∃ value, i = mk value ∧ bs = value :: rest := by
  constructor
  · intro h
    unfold decodeB1 at h
    split at h <;> cases h
    exact ⟨_, rfl, rfl⟩
  · rintro ⟨value, rfl, rfl⟩
    rfl

theorem decodeB2_eq_ok {mk : Byte → Byte → Instr} {bs rest : List Byte} {i : Instr} :
    decodeB2 mk bs = .ok i rest ↔ ∃ col row, i = mk col row ∧ bs = col :: row :: rest := by
  constructor
  · intro h
    unfold decodeB2 at h
    split at h <;> cases h
    exact ⟨_, _, rfl, rfl⟩
  · rintro ⟨col, row, rfl, rfl⟩
    rfl

/-- A glyph is its eight bytes. -/
theorem glyph_eq (glyph : Vector Byte 8) :
    glyph = #v[glyph[0], glyph[1], glyph[2], glyph[3], glyph[4], glyph[5], glyph[6], glyph[7]] := by
  ext i hi
  interval_cases i <;> rfl

theorem decodeB9_eq_ok {mk : Byte → Vector Byte 8 → Instr} {bs rest : List Byte} {i : Instr} :
    decodeB9 mk bs = .ok i rest ↔ ∃ slot glyph, i = mk slot glyph ∧ bs = slot :: (glyph.toList ++ rest) := by
  constructor
  · intro h
    unfold decodeB9 at h
    split at h <;> cases h
    exact ⟨_, _, rfl, rfl⟩
  · rintro ⟨slot, glyph, rfl, rfl⟩
    rw [glyph_eq glyph]
    rfl

theorem decodeS_eq_ok {term : Byte} {mk : List Byte → Instr} {bs rest : List Byte} {i : Instr} :
    decodeS term mk bs = .ok i rest ↔
      ∃ text, text.all (· != term) = true ∧ i = mk text ∧ bs = text ++ term :: rest := by
  constructor
  · intro h
    unfold decodeS at h
    split at h <;> cases h
    next text hsplit =>
      obtain ⟨hbytes, htext⟩ := splitText_eq_some hsplit
      exact ⟨text, htext, rfl, hbytes⟩
  · rintro ⟨text, htext, rfl, rfl⟩
    rw [decodeS, splitText_append term text rest htext]

/-! ## Requests and their bytes (R91, R94, R95) -/

/-- Settles O1, by the formats: the bytes of a fixed-length request are read one by one, and a `WRSTR` text is split at
its terminator (`splitText_append`, an induction on the text). -/
theorem requestDecodesFromItsBytes : Obligations.RequestDecodesFromItsBytes := by
  intro term i rest hr hwf
  cases i
  case createChar slot glyph => exact decodeB9_eq_ok.mpr ⟨slot, glyph, rfl, rfl⟩
  case wrStr text => exact decodeS_eq_ok.mpr ⟨text, hwf, rfl, by simp⟩
  all_goals first | exact Bool.noConfusion hr | rfl

/-- The decoder answers a well-formed request and takes its bytes, by the format its opcode selects. -/
theorem decode_bytes {term : Byte} {bs rest : List Byte} {i : Instr} (h : decode term bs = .ok i rest) :
    i.wellFormed term = true ∧ encode term i ++ rest = bs := by
  cases bs with
  | nil => cases h
  | cons b bs =>
    rw [decode] at h
    split at h <;> rename_i hb
    case h_21 => cases h
    all_goals obtain ⟨-, rfl⟩ := BitVec.toNat_eq_nat.mp hb
    case h_4 =>
      obtain ⟨col, row, rfl, rfl⟩ := decodeB2_eq_ok.mp h
      exact ⟨rfl, rfl⟩
    case h_17 =>
      obtain ⟨slot, glyph, rfl, rfl⟩ := decodeB9_eq_ok.mp h
      exact ⟨rfl, rfl⟩
    case h_18 =>
      obtain ⟨text, htext, rfl, rfl⟩ := decodeS_eq_ok.mp h
      exact ⟨htext, by simp [encode]⟩
    case h_19 =>
      obtain ⟨value, rfl, rfl⟩ := decodeB1_eq_ok.mp h
      exact ⟨rfl, rfl⟩
    case h_20 =>
      obtain ⟨value, rfl, rfl⟩ := decodeB1_eq_ok.mp h
      exact ⟨rfl, rfl⟩
    all_goals
      cases h
      exact ⟨rfl, rfl⟩

/-- Settles O2, by what each format reads (`decode_bytes`). -/
theorem decodedRequestIsItsBytes : Obligations.DecodedRequestIsItsBytes :=
  fun _ _ _ _ h => ⟨decode_isRequest h, decode_bytes h⟩

/-! ## The bytes of the bus commands (R100 to R110) -/

theorem busByte_entryModeSet : ∀ b : Byte, b &&& 0xFC#8 = hd44780Codes.entryModeSet →
    busByte hd44780Codes (.entryModeSet (b.getLsbD 1) (b.getLsbD 0)) = some b := by decide

theorem busByte_displayControl : ∀ b : Byte, b &&& 0xF8#8 = hd44780Codes.displayControl →
    busByte hd44780Codes (.displayControl (b.getLsbD 2) (b.getLsbD 1) (b.getLsbD 0)) = some b := by decide

theorem busByte_cursorShift : ∀ b : Byte, b &&& 0xFB#8 = hd44780Codes.cursorShift ||| hd44780Codes.displayMove →
    busByte hd44780Codes (.cursorShift (b.getLsbD 2)) = some b := by decide

theorem busByte_functionSet : ∀ b : Byte, b &&& 0xE3#8 = hd44780Codes.functionSet →
    busByte hd44780Codes (.functionSet (b.getLsbD 4) (b.getLsbD 3) (b.getLsbD 2)) = some b := by decide

theorem busByte_setCgramAddr : ∀ b : Byte, b &&& 0xC7#8 = hd44780Codes.setCgramAddr →
    busByte hd44780Codes (.setCgramAddr (b.extractLsb' 3 3)) = some b := by decide

theorem busByte_setDdramAddr : ∀ b : Byte, b &&& 0x80#8 = hd44780Codes.setDdramAddr →
    busByte hd44780Codes (.setDdramAddr (b.extractLsb' 0 7)) = some b := by decide

/-- A bus command is encoded as its byte, with the numbers of the spec. -/
theorem encode_busCommand {i : Instr} (hi : i.isBusCommand = true) {b : Byte} (hb : busByte hd44780Codes i = some b)
    (term : Byte) : encode term i = [b] := by
  have h : encode term i = (busByte hd44780Codes i).toList := by
    cases i <;> first | exact Bool.noConfusion hi | rfl
  rw [h, hb, Option.toList_some]

/-- What the bus decoder answers is a bus command whose byte it read, row by row of R109. -/
theorem decodeBus_eq_some {b : Byte} {i : Instr} (h : decodeBus b = some i) :
    i.isBusCommand = true ∧ busByte hd44780Codes i = some b := by
  unfold decodeBus at h
  split_ifs at h with hclear hhome hentry hdisplay hshift hfunction hcgram hddram <;> cases h
  · exact ⟨rfl, congrArg some hclear.symm⟩
  · exact ⟨rfl, congrArg some hhome.symm⟩
  · exact ⟨rfl, busByte_entryModeSet b hentry⟩
  · exact ⟨rfl, busByte_displayControl b hdisplay⟩
  · exact ⟨rfl, busByte_cursorShift b hshift⟩
  · exact ⟨rfl, busByte_functionSet b hfunction⟩
  · exact ⟨rfl, busByte_setCgramAddr b hcgram⟩
  · exact ⟨rfl, busByte_setDdramAddr b hddram⟩

/-- The bytes R111 lists, checked over the 256 bytes. -/
theorem decodeBus_eq_none : ∀ b : Byte, decodeBus b = none ↔
    (b = 0x00#8 ∨ b = 0x03#8 ∨ (b &&& 0xF8#8 = 0x10#8) ∨ (b &&& 0xF8#8 = 0x18#8 ∧ b &&& 0x03#8 ≠ 0x00#8) ∨
      (b &&& 0xE0#8 = 0x20#8 ∧ b &&& 0x03#8 ≠ 0x00#8) ∨ (b &&& 0xC0#8 = 0x40#8 ∧ b &&& 0x07#8 ≠ 0x00#8)) := by
  decide

/-- Settles O4, by the rows of R109 (`decodeBus_eq_some`) and the list of R111 (`decodeBus_eq_none`). -/
theorem busDecoderAcceptsNothingElse : Obligations.BusDecoderAcceptsNothingElse := by
  refine ⟨fun term b i h => ?_, decodeBus_eq_none⟩
  obtain ⟨hi, hb⟩ := decodeBus_eq_some h
  exact ⟨hi, encode_busCommand hi hb term⟩

/-- A bus command is read back from its byte, whatever its fields. -/
theorem decodeBus_busByte {i : Instr} (hi : i.isBusCommand = true) :
    ∃ b, busByte hd44780Codes i = some b ∧ decodeBus b = some i := by
  cases i
  case clearDisplay => exact ⟨_, rfl, rfl⟩
  case returnHome => exact ⟨_, rfl, rfl⟩
  case entryModeSet entryLeft shiftInc => exact ⟨_, rfl, by decide +revert⟩
  case displayControl d c b => exact ⟨_, rfl, by decide +revert⟩
  case cursorShift right => exact ⟨_, rfl, by decide +revert⟩
  case functionSet dl twoLine large => exact ⟨_, rfl, by decide +revert⟩
  case setCgramAddr slot => exact ⟨_, rfl, by decide +revert⟩
  case setDdramAddr addr => exact ⟨_, rfl, by decide +revert⟩
  all_goals exact Bool.noConfusion hi

/-- Settles O3, by the rows of R109 and the two nibbles of R108. -/
theorem busRowDecodesFromItsByte : Obligations.BusRowDecodesFromItsByte := by
  constructor
  · intro term i hi
    obtain ⟨b, hb, hdecode⟩ := decodeBus_busByte hi
    exact ⟨b, encode_busCommand hi hb term, hdecode⟩
  · intro term i hr hi
    cases i
    case handshake3 => exact ⟨handshakeNibble3, rfl, by decide, by decide⟩
    case handshake2 => exact ⟨handshakeNibble2, rfl, by decide, by decide⟩
    all_goals first | exact Bool.noConfusion hr | exact Bool.noConfusion hi

/-- Settles O5, by running both decoders on the eight words. -/
theorem wordsOfTheTablesDecode : Obligations.WordsOfTheTablesDecode := by
  unfold Obligations.WordsOfTheTablesDecode
  decide

/-! ## The command bytes a request sends (R111) -/

/-- A request that writes no flags, `CMD` aside, sends bus commands with `RS` low. -/
theorem requestTransfers_busCommand {i : Instr} {s : State} (hcmd : ∀ value, i ≠ .cmd value)
    (hd : writesDisplayControl i = false) (he : writesEntryMode i = false) (hcodes : s.config.codes = hd44780Codes)
    {v : Byte} (hv : (false, v) ∈ requestTransfers i s) :
    ∃ j, j.isBusCommand = true ∧ busByte hd44780Codes j = some v := by
  have hone : ∀ c : Byte, (false, v) ∈ [(false, c)] → v = c := by simp
  have hcgram : ∀ slot : Byte, (0x40#8 ||| ((slot &&& 0x07#8) <<< 3)) &&& 0xC7#8 = 0x40#8 := by decide
  have hddram : ∀ address : Byte, (0x80#8 ||| address) &&& 0x80#8 = 0x80#8 := by decide
  cases i <;> simp only [requestTransfers, hcodes] at hv
  case cmd value => exact absurd rfl (hcmd value)
  case clear => exact ⟨.clearDisplay, rfl, congrArg some (hone _ hv).symm⟩
  case home => exact ⟨.returnHome, rfl, congrArg some (hone _ hv).symm⟩
  case scrollL => exact ⟨.cursorShift false, rfl, congrArg some (hone _ hv).symm⟩
  case scrollR => exact ⟨.cursorShift true, rfl, congrArg some (hone _ hv).symm⟩
  case setCursor col row =>
    obtain rfl := hone _ hv
    exact ⟨_, rfl, busByte_setDdramAddr _ (hddram _)⟩
  case createChar slot glyph =>
    obtain rfl := hone _ (by simpa using hv)
    exact ⟨_, rfl, busByte_setCgramAddr _ (hcgram slot)⟩
  all_goals first | exact Bool.noConfusion hd | exact Bool.noConfusion he | simp at hv

/-- A request that is one command sends its byte and no other. -/
theorem eq_of_mem_sentBytes_command {b : BusParams} {ws : List RegWrite} {ls : Lines} {l : Level} {v c : Byte}
    (hE : levelOf ls .e = false)
    (hv : (l, v) ∈ sentBytes b ls ((segment ws (commandEvents b c)).map Micro.event)) : v = c := by
  rw [commandEvents, sentBytes_segment_transferByte b ws c .command hE, List.mem_singleton] at hv
  exact congrArg Prod.snd hv

/-- A request other than `INIT` and `CMD` sends bus commands with `RS` low: the composite command of the flags it
writes, or the bytes of its own rule. -/
theorem sentBytes_busCommand {i : Instr} {s : State} (hr : i.isRequest = true) (hi : i ≠ .init)
    (hcmd : ∀ value, i ≠ .cmd value) (hcodes : s.config.codes = hd44780Codes) (hE : s.level .e = false)
    (hclear : ReservedClear s) {v : Byte} (hv : (false, v) ∈ sentBytes s.bus s.lines (eventsOf i s)) :
    ∃ j, j.isBusCommand = true ∧ busByte hd44780Codes j = some v := by
  obtain ⟨-, hdc, hem⟩ := hclear
  rcases access_class i with hinit | hd | he | ⟨-, hd, he⟩
  · exact absurd hinit hi
  · obtain ⟨flags, hprogram, hflags⟩ := programOf_displayControl hd s
    rw [hdc, hcodes] at hflags
    rw [eventsOf, hprogram, displayControlProgram, hcodes] at hv
    obtain rfl := eq_of_mem_sentBytes_command hE hv
    exact ⟨_, rfl, busByte_displayControl _ (eq_of_beq (isDisplayControl_or hflags))⟩
  · obtain ⟨flags, hprogram, hflags⟩ := programOf_entryMode he s
    rw [hem, hcodes] at hflags
    rw [eventsOf, hprogram, entryModeProgram, hcodes] at hv
    obtain rfl := eq_of_mem_sentBytes_command hE hv
    exact ⟨_, rfl, busByte_entryModeSet _ (eq_of_beq (isEntryModeSet_or hflags))⟩
  · rw [everyRequestSendsItsBytes i s hr hi hE] at hv
    exact requestTransfers_busCommand hcmd hd he hcodes hv

/-- Settles O47: each byte sent is the byte of a row (`sentBytes_busCommand`), which is its encoding. -/
theorem commandBytesAreBusCommands : Obligations.CommandBytesAreBusCommands := by
  intro i s hr hi hcmd hcodes hE hclear v hv
  obtain ⟨j, hj, hbyte⟩ := sentBytes_busCommand hr hi hcmd hcodes hE hclear hv
  exact ⟨j, hj, encode_busCommand hj hbyte s.config.terminator⟩

/-! ## The step on the bytes offered (R92, R96) -/

/-! An idle step is the answer that `State.advance_cases` gives for what the decoder says. -/

theorem step_of_decode_ok {s : State} (hn : ∀ p, s.pos ≠ .running p) {i : Instr} {rest : List Byte}
    (h : decode s.config.terminator s.inbox = .ok i rest) : step s = exec i { s with inbox := rest } := by
  have hanswer := ((State.advance_cases exec s).resolve_left fun ⟨p, hp, _⟩ => hn p hp).2
  rw [h] at hanswer
  simpa [step] using hanswer

theorem step_of_decode_reservedOpcode {s : State} (hn : ∀ p, s.pos ≠ .running p) {b : Byte}
    (h : decode s.config.terminator s.inbox = .error (.reservedOpcode b)) :
    step s = .refused (.reservedOpcode b) := by
  have hanswer := ((State.advance_cases exec s).resolve_left fun ⟨p, hp, _⟩ => hn p hp).2
  rw [h] at hanswer
  simpa [step] using hanswer

theorem step_of_decode_unterminated {s : State} (hn : ∀ p, s.pos ≠ .running p)
    (h : decode s.config.terminator s.inbox = .error .unterminated) : step s = .refused .unterminatedString := by
  have hanswer := ((State.advance_cases exec s).resolve_left fun ⟨p, hp, _⟩ => hn p hp).2
  rw [h] at hanswer
  simpa [step] using hanswer

/-- Settles O6, by what an idle step can answer. -/
theorem stepRunsTheDecodedRequest : Obligations.StepRunsTheDecodedRequest :=
  fun _ _ _ hn h => step_of_decode_ok hn h

/-- The table of R91 ends at 0x13. -/
theorem decode_reserved (term : Byte) {b : Byte} (hb : 0x14 ≤ b.toNat) (bs : List Byte) :
    decode term (b :: bs) = .error (.reservedOpcode b) := by
  rw [decode]
  split
  case h_21 => rfl
  all_goals omega

theorem decode_unterminated {term : Byte} {bs : List Byte} (h : bs.all (· != term) = true) :
    decode term (0x11#8 :: bs) = .error .unterminated := by
  have hdecode : decode term (0x11#8 :: bs) = decodeS term .wrStr bs := rfl
  rw [hdecode, decodeS, splitText_eq_none.mpr h]

/-- Settles O8, by what the decoder says of such bytes. -/
theorem reservedOpcodesAreRefused : Obligations.ReservedOpcodesAreRefused := by
  intro s bs hn
  constructor
  · intro b hb hinbox
    exact step_of_decode_reservedOpcode hn (hinbox ▸ decode_reserved s.config.terminator hb bs)
  · intro hbs hinbox
    exact step_of_decode_unterminated hn (hinbox ▸ decode_unterminated hbs)

/-! ## The bus rows as the block sends them (R100 to R109) -/

/-- A bus command whose byte is known sends that byte (`exec_busCommand`). -/
theorem exec_of_busByte {i : Instr} (hi : i.isBusCommand = true) {s : State} {v : Byte}
    (hv : busByte s.config.codes i = some v) : exec i s = .next (s.emitAll (commandEvents s.bus v)) := by
  obtain ⟨w, hw, hexec⟩ := exec_busCommand hi s
  obtain rfl : w = v := Option.some.inj (hw.symm.trans hv)
  exact hexec

/-- Settles O49, by the byte of each row with the numbers of the spec. -/
theorem busCommandsSendTheirByte : Obligations.BusCommandsSendTheirByte := by
  rintro s _ rfl
  refine ⟨fun i hi => exec_busCommand hi s, fun hcodes => ?_⟩
  have row : ∀ {i : Instr} {v : Byte}, i.isBusCommand = true → busByte hd44780Codes i = some v →
      exec i s = .next (s.emitAll (transferByte s.bus v .command)) :=
    fun hi hv => exec_of_busByte hi (hcodes ▸ hv)
  exact ⟨row rfl rfl, row rfl rfl, fun i r => row rfl (by decide +revert), fun d c b => row rfl (by decide +revert),
    fun r => row rfl (by decide +revert), fun l n f => row rfl (by decide +revert), fun slot => row rfl rfl,
    fun a => row rfl rfl⟩

/-- A raw nibble is written on the four nibble lines and the strobe (R134). -/
theorem line_of_mem_drive4 {b : BusParams} {n : Byte} {l : Line} {v : Level} (h : Event.setLine l v ∈ drive4 b n) :
    l = .e ∨ ∃ i, l = nibbleLine b.nibbleBase i := by
  simp only [drive4, pulseStrobe, List.cons_append, List.nil_append, List.mem_cons, Event.setLine.injEq, reduceCtorEq,
    false_or, List.not_mem_nil, or_false] at h
  rcases h with ⟨rfl, _⟩ | ⟨rfl, _⟩ | ⟨rfl, _⟩ | ⟨rfl, _⟩ | ⟨rfl, _⟩ | ⟨rfl, _⟩ | ⟨rfl, _⟩
  · exact .inr ⟨_, rfl⟩
  · exact .inr ⟨_, rfl⟩
  · exact .inr ⟨_, rfl⟩
  · exact .inr ⟨_, rfl⟩
  · exact .inl rfl
  · exact .inl rfl
  · exact .inl rfl

/-- Settles O50: of the lines of a raw nibble (`line_of_mem_drive4`) none is `RS` or `RW`. -/
theorem handshakeNibblesAreRaw : Obligations.HandshakeNibblesAreRaw := by
  refine fun s => ⟨rfl, rfl, fun v l h => ?_⟩
  have hline : l = .e ∨ ∃ i, l = nibbleLine s.bus.nibbleBase i := by
    rcases List.mem_append.mp h with h | h <;> exact line_of_mem_drive4 h
  rcases hline with rfl | ⟨i, rfl⟩
  · simp
  · cases s.bus.nibbleBase <;> simp [nibbleLine]

end Sys2Proof.Machine
end

section
/-! Proofs of the statements about the bus transfers (40_bus_transfer.md): the strobe, the transfers of four and of
eight lines, the register selection, the byte transfer, and what every request keeps of them. -/

namespace Sys2Proof.Machine

/-! ## The strobe while lines are written (R138) -/

/-- An 8-line transfer writes its data lines before it raises `E`, and lowers `E` again (R133). -/
theorem quietWhileHigh_drive8 (b : BusParams) (v : Byte) (es : List Event) :
    quietWhileHigh false (drive8 b v ++ es) = quietWhileHigh false es := rfl

/-- The same for a 4-line transfer, whichever four lines it writes (R134). -/
theorem quietWhileHigh_drive4 (b : BusParams) (n : Byte) (es : List Event) :
    quietWhileHigh false (drive4 b n ++ es) = quietWhileHigh false es := by
  unfold drive4
  cases b.nibbleBase <;> rfl

/-- Framed events begun with `E` low write no data, `RS` or `RW` line while `E` is high (R138). -/
theorem Framed.quiet {b : BusParams} {es : List Event} (h : Framed b es) : quietWhileHigh false es = true := by
  induction h with
  | nil => rfl
  | guard _ _ ih => exact ih
  | rs _ _ ih => exact ih
  | rw _ _ ih => exact ih
  | eLow _ ih => exact ih
  | byte v _ _ ih => rw [quietWhileHigh_drive8, ih]
  | nibble n _ _ ih => rw [quietWhileHigh_drive4, ih]

/-- Settles O57: every request's event list is framed. -/
theorem linesAreStableWhileStrobeIsHigh : Obligations.LinesAreStableWhileStrobeIsHigh :=
  fun i s hE => ⟨(framed_eventsOf i s).quiet, (framed_eventsOf i s).e_low hE⟩

/-! ## One byte transfer (R136 to R138) -/

/-- Settles O25, by the words of one transfer in the two framings. -/
theorem nibblesReconstructTheByte : Obligations.NibblesReconstructTheByte := by
  intro b v mode ls hE
  rw [latchedWords_transferByte b v mode hE, ← modeLevel_eq]
  cases hd : b.dl with
  | true => exact ⟨_, if_pos hd⟩
  | false => exact ⟨_, _, _, if_neg (ne_true_of_eq_false hd), nibbles_join v⟩

theorem levelOf_drive4_rw (b : BusParams) (n : Byte) (ls : Lines) :
    levelOf (linesAfter ls (drive4 b n)) .rw = levelOf ls .rw :=
  levelOf_drive4_other b n ls (by simp) (by cases b.nibbleBase <;> simp [nibbleLine])

/-- A transfer begins by selecting the register, so a wired `RW` is low after it (R135). -/
theorem levelOf_transferByte_rw (b : BusParams) (v : Byte) (mode : RegSel) (hw : b.rwWired = true) (ls : Lines) :
    levelOf (linesAfter ls (transferByte b v mode)) .rw = false := by
  have hsel : levelOf (linesAfter ls (selectRegister b mode)) .rw = false := by
    rw [levelOf_selectRegister]
    exact if_pos hw
  cases hd : b.dl <;> simp [transferByte, hd, levelOf_drive8, levelOf_drive4_rw, hsel]

/-- After an 8-bit transfer the data lines hold the byte (R138). -/
theorem dataByte_transferByte {b : BusParams} (hd : b.dl = true) (v : Byte) (mode : RegSel) (ls : Lines) :
    dataByte (linesAfter ls (transferByte b v mode)) = v :=
  dataByte_eq fun i => by simp [transferByte, hd, levelOf_drive8]

/-- After a 4-bit transfer the nibble lines hold the nibble sent last, the low one (R138). -/
theorem dataNibble_transferByte {b : BusParams} (hd : b.dl = false) (v : Byte) (mode : RegSel) (ls : Lines) :
    dataNibble b.nibbleBase (linesAfter ls (transferByte b v mode)) = v.setWidth 4 := by
  have hlow : ∀ i : Fin 4, (lowNibble v).getLsbD i.val = (v.setWidth 4).getLsbD i.val := by
    intro i
    fin_cases i <;> simp [lowNibble]
  exact dataNibble_eq fun i => by simp [transferByte, hd, levelOf_drive4_nibble, hlow]

/-- Settles O26: the levels line by line, and quietness from the transfer's shape. -/
theorem linesHoldAroundATransfer : Obligations.LinesHoldAroundATransfer := by
  intro b v mode ls
  have hrs : levelOf (linesAfter ls (transferByte b v mode)) .rs = decide (mode = .data) := by
    rw [levelOf_transferByte_rs, modeLevel_eq]
  exact ⟨hrs, fun hw => levelOf_transferByte_rw b v mode hw ls, levelOf_transferByte_e b v mode ls,
    fun hd => dataByte_transferByte hd v mode ls, fun hd => dataNibble_transferByte hd v mode ls,
    (framed_transferByte b v mode).quiet⟩

/-! ## The pieces of a transfer (R131 to R135) -/

/-- Settles O20, by the laws of the strobe. -/
theorem pulseStrobeIsExact : Obligations.PulseStrobeIsExact := by
  intro t b ls
  refine ⟨rfl, by decide, latchedWords_pulseStrobe b t, ?_, fun l hl => ?_⟩
  · rw [levelOf_pulseStrobe, if_pos rfl]
  · rw [levelOf_pulseStrobe, if_neg hl]

/-- Settles O21, by the word an 8-line transfer latches. -/
theorem driveEightLatchesTheByte : Obligations.DriveEightLatchesTheByte := by
  refine fun b v ls => ⟨rfl, length_drive8 b v, fun hd hE => ?_⟩
  rw [latchedWords_drive8 b v hE hd]
  rfl

/-- A 4-line transfer ignores the high nibble of its operand (R134). -/
theorem drive4_lowNibble (b : BusParams) (n : Byte) : drive4 b (lowNibble n) = drive4 b n := by
  simp [drive4, lowNibble]

/-- Settles O22, by the word a 4-line transfer latches and the lines it leaves. -/
theorem driveFourLatchesTheNibble : Obligations.DriveFourLatchesTheNibble := by
  refine fun b n ls => ⟨rfl, length_drive4 b n, drive4_lowNibble b n,
    fun l hE hl => levelOf_drive4_other b n ls hE hl, fun hd hE => ?_⟩
  rw [latchedWords_drive4 b n hE hd, BitVec.setWidth_eq_extractLsb' (by omega)]
  rfl

/-- Settles O23: the level of `RS` is the mode. -/
theorem selectRegisterWritesRsThenRw : Obligations.SelectRegisterWritesRsThenRw := by
  intro b mode
  rw [selectRegister, modeLevel_eq]

/-! ## Guards after a transfer (43_display_ops.md R192, R193) -/

/-- An 8-line transfer ends with a latch point and then `T_SETTLE` (R131). -/
theorem gapAfter_drive8 (b : BusParams) (v : Byte) (g : Nat) (es : List Event) :
    gapAfter false g (drive8 b v ++ es) = gapAfter false b.timing.tSettle es := by
  simp [drive8, pulseStrobe, gapAfter]

/-- The same for a 4-line transfer (R131). -/
theorem gapAfter_drive4 (b : BusParams) (n : Byte) (g : Nat) (es : List Event) :
    gapAfter false g (drive4 b n ++ es) = gapAfter false b.timing.tSettle es := by
  unfold drive4
  cases b.nibbleBase <;> simp [nibbleLine, pulseStrobe, gapAfter]

/-- A register selection has no guard and leaves `E` (R135). -/
theorem gapAfter_selectRegister (b : BusParams) (mode : RegSel) (g : Nat) (es : List Event) :
    gapAfter false g (selectRegister b mode ++ es) = gapAfter false g es := by
  cases hw : b.rwWired <;> simp [selectRegister, hw, gapAfter]

/-- After a byte transfer `T_SETTLE` has passed since its last latch point, whatever the gap before it (R131, R136). -/
theorem gapAfter_transferByte (b : BusParams) (v : Byte) (mode : RegSel) (g : Nat) (es : List Event) :
    gapAfter false g (transferByte b v mode ++ es) = gapAfter false b.timing.tSettle es := by
  rw [transferByte, List.append_assoc, gapAfter_selectRegister]
  cases hd : b.dl with
  | true => exact gapAfter_drive8 b v g es
  | false =>
    simp only [Bool.false_eq_true, if_false, List.append_assoc]
    rw [gapAfter_drive4, gapAfter_drive4]

/-- A command and a guard accepted in `READY` are emitted and change nothing else (R192, R193). -/
theorem exec_guarded_of_ready {i : Instr} (hr : i.isRequest = true) (hi : i ≠ .init) {v : Byte}
    {guardTime : Timing → Nat} {s : State} (hp : programOf i s = guardedProgram v guardTime s) (h : s.pos = .ready) :
    exec i s = .next (s.emitAll (transferByte s.bus v .command ++ [.delay (guardTime s.config.timing)])) := by
  rw [exec_request_of_ready hr hi h, hp, guardedProgram, State.performAll_segment_nil, commandEvents]

/-- Settles O34: `CLEAR` and `HOME` are guarded commands. -/
theorem clearAndHomeSendAndWait : Obligations.ClearAndHomeSendAndWait := by
  refine ⟨rfl, rfl, rfl, ?_⟩
  rintro s hs _ _ rfl rfl
  exact ⟨rfl, exec_guarded_of_ready rfl (by simp) rfl hs, fun g => gapAfter_transferByte ..,
    rfl, exec_guarded_of_ready rfl (by simp) rfl hs, fun g => gapAfter_transferByte ..⟩

end Sys2Proof.Machine
end

section
/-! Proof of the statement about the two requests that send a byte as it is given (41_dispatcher.md R150, R151). -/

namespace Sys2Proof.Machine

/-- Before `INIT` every other request is refused (R41). -/
theorem exec_request_of_uninit {i : Instr} (hr : i.isRequest = true) (hi : i ≠ .init) {s : State}
    (h : s.pos = .uninit) : exec i s = .refused .beforeInit := by
  rw [exec_request hr hi, State.acceptInReady_of_uninit h]

/-- A request whose program writes no register only emits its events in `READY`. -/
theorem exec_segment_nil_of_ready {i : Instr} (hr : i.isRequest = true) (hi : i ≠ .init) {es : List Event}
    {s : State} (hp : programOf i s = segment [] es) (h : s.pos = .ready) : exec i s = .next (s.emitAll es) := by
  rw [exec_request_of_ready hr hi h, hp, State.performAll_segment_nil]

/-- Settles O27: the programs of `CMD` and `WRB` are one transfer each and write no register, whatever the byte is. -/
theorem dispatcherSendsTheByte : Obligations.DispatcherSendsTheByte := by
  intro value s hs
  have hcmd : programOf (.cmd value) s = segment [] (transferByte s.bus value .command) := rfl
  have hwrb : programOf (.wrb value) s = segment [] (transferByte s.bus value .data) := rfl
  exact ⟨rfl, rfl, exec_segment_nil_of_ready rfl (by simp) hcmd hs, exec_segment_nil_of_ready rfl (by simp) hwrb hs,
    fun u hu => ⟨exec_request_of_uninit rfl (by simp) hu, exec_request_of_uninit rfl (by simp) hu⟩⟩

end Sys2Proof.Machine
end

section
/-! Proofs of the statements about the initialization sequencer (42_init_sequencer.md): the eleven steps of `INIT`, the
state it leaves, its state table, its size and the spacing of its latch points. -/

namespace Sys2Proof.Machine

/-! ## What `INIT` does (R160 to R172) -/

/-- The flags of steps 1, 2 and 4, as one OR (R161, R162, R164). -/
theorem initFunctionFlags_eq (c : Config) :
    initFunctionFlags c = ((if c.bitMode = .bit8 then c.codes.f8Bit else c.codes.f4Bit)
      ||| c.codes.f1Line ||| c.codes.f5x8
      ||| (if 1 < c.lines.toNat then c.codes.f2Line else 0x00#8)
      ||| (if c.font = .large ∧ c.lines.toNat = 1 then c.codes.f5x10 else 0x00#8)) := by
  have h1 : functionFlags1 c = (if c.bitMode = .bit8 then c.codes.f8Bit else c.codes.f4Bit)
      ||| c.codes.f1Line ||| c.codes.f5x8 := by
    cases h : c.bitMode <;> simp [functionFlags1, h]
  have h2 : functionFlags2 c = functionFlags1 c ||| (if 1 < c.lines.toNat then c.codes.f2Line else 0x00#8) := by
    by_cases h : 1 < c.lines.toNat <;> simp [functionFlags2, Config.severalLines, setFlag, h]
  rw [← h1, ← h2]
  by_cases h : c.font = .large ∧ c.lines.toNat = 1
  · have hl : Config.largeFontApplies c = true := decide_eq_true h
    rw [if_pos h, initFunctionFlags, if_pos hl, setFlag]
  · have hl : ¬ Config.largeFontApplies c = true := fun hl => h (of_decide_eq_true hl)
    rw [if_neg h, initFunctionFlags, if_neg hl, BitVec.or_zero]

/-- `INIT` frames its transfers with the configured width and wiring (90 C10). -/
theorem initBus_eq (c : Config) :
    initBus c = ⟨decide (c.bitMode = .bit8), c.rwWired, c.nibbleBase, c.timing⟩ := by
  rw [initBus, initFunctionFlags_dl]

/-- Settles O28: the registers and events of `INIT` (`State.performAll_initProgram`, `initProgram_events`), with its
flags and its framing as the configuration gives them. -/
theorem initDoesItsElevenSteps : Obligations.InitDoesItsElevenSteps := by
  refine ⟨by decide, ?_⟩
  intro s hpos hlo hhi ff fset b es hff hfset hb hes
  rw [← initFunctionFlags_eq] at hff
  rw [← initBus_eq] at hb
  subst hff hfset hb
  have hevents : es = (initProgram s.config).map Micro.event := by
    rw [hes, initProgram_events]
    cases hb : s.config.bitMode <;>
      simp only [initForceLow, initHandshake, hb, initHandshake4, initHandshake8, List.append_assoc] <;> rfl
  refine ⟨rfl, s.config.timing.tPowerOn.property, ?_⟩
  rw [exec_init_of_uninit hpos (by simp [Config.linesLegal, hlo, hhi]), State.performAll_initProgram,
    State.emitAll_eq, hevents]

/-! ## Where `INIT` leaves the block (R173) -/

/-- The registers beside `functionFlags` (`exec_init_functionFlags`) as `INIT` leaves them. -/
theorem exec_init_registers {s t : State} (h : exec .init s = .next t) :
    t.displayControlFlags = s.config.codes.displayOn ∧ t.entryModeFlags = s.config.codes.entryLeft ∧
      t.lineCount = s.config.lines ∧
      t.rowOffsets = #v[0x00#8, 0x40#8, 0x00#8 + s.config.columns, 0x40#8 + s.config.columns] := by
  obtain ⟨-, -, rfl⟩ := exec_init_next h
  simp [State.performAll_initProgram]

/-- The data lines hold what the last transfer of `INIT` put on them. -/
theorem exec_init_lines_last {s t : State} (h : exec .init s = .next t) :
    ∃ ls, t.lines = linesAfter ls
      (transferByte (initBus s.config) (s.config.codes.entryModeSet ||| s.config.codes.entryLeft) .command) := by
  rw [exec_init_lines h, initProgram_events, linesAfter_append]
  exact ⟨_, rfl⟩

/-- Settles O29: the registers as `INIT` wrote them, the selection lines low (`commandSelected_init`), the data lines
as its last transfer left them, and the undriven lines by its frame. -/
theorem initLeavesTheTerminalState : Obligations.InitLeavesTheTerminalState := by
  refine ⟨by decide, ?_⟩
  intro s t _ h
  have hselected := commandSelected_init s.config s.lines
  rw [← exec_init_lines h] at hselected
  obtain ⟨hE, hrs, hrw⟩ := hselected
  obtain ⟨ls, hlines⟩ := exec_init_lines_last h
  obtain ⟨-, -, -, hundriven⟩ := frameOfInit s t h
  obtain ⟨hdc, hem, hlc, hro⟩ := exec_init_registers h
  refine ⟨by rw [State.phase, exec_init_pos h]; rfl, exec_init_functionFlags h, hdc, hem, hlc, hro, hrs, hE, hrw,
    fun hb => ?_, fun hb => ?_, hundriven⟩
  · rw [hlines]
    exact dataByte_transferByte (by simp [initBus_dl, hb]) _ _ _
  · rw [hlines]
    exact dataNibble_transferByte (by simp [initBus_dl, hb]) _ _ _

/-- Settles O33: a request other than `INIT` writes only the flags of its access class (`exec_request_effect`), and a
bus row only emits events. -/
theorem onlyInitWritesItsRegisters : Obligations.OnlyInitWritesItsRegisters := by
  intro i s t hi hn h
  cases hr : i.isRequest with
  | true =>
    have heffect := exec_request_effect hr hi hn h
    exact ⟨heffect.functionFlags_eq, heffect.lineCount_eq, heffect.rowOffsets_eq⟩
  | false =>
    obtain ⟨es, rfl, -⟩ := exec_busRow_next hr h
    exact ⟨State.emitAll_functionFlags s es, State.emitAll_lineCount s es, State.emitAll_rowOffsets s es⟩

/-! ## The state table (R175) -/

theorem segment_append (ws : List RegWrite) {es : List Event} (h : es ≠ []) (fs : List Event) :
    segment ws (es ++ fs) = segment ws es ++ segment [] fs := by
  cases es with
  | nil => exact absurd rfl h
  | cons e es => cases fs <;> simp [segment]

/-- A step without events hands its writes to the next step. -/
theorem weave_silent (pending ws : List RegWrite) (steps : List (List RegWrite × List Event)) :
    weave pending ((ws, []) :: steps) = weave (pending ++ ws) steps := rfl

theorem weave_step (pending ws : List RegWrite) {es : List Event} (h : es ≠ [])
    (steps : List (List RegWrite × List Event)) :
    weave pending ((ws, es) :: steps) = segment (pending ++ ws) es ++ weave [] steps := by
  simp [weave, h]

/-- A step without writes does what the step before it does if its events are moved there. -/
theorem weave_join (pending ws : List RegWrite) {es : List Event} (h : es ≠ []) (fs : List Event)
    (steps : List (List RegWrite × List Event)) :
    weave pending ((ws, es) :: ([], fs) :: steps) = weave pending ((ws, es ++ fs) :: steps) := by
  have hes : es ++ fs ≠ [] := by simp [h]
  rw [weave_step _ _ hes, weave_step _ _ h, segment_append _ h, List.append_assoc]
  cases fs with
  | nil => rfl
  | cons f fs => rw [weave_step [] [] (by simp)]; rfl

/-- The state table from `I_IDLE`: with 16 states or more it has come to `I_DONE` (R175). -/
theorem initWalk_idle (c : Config) (k : Nat) :
    initWalk c (16 + k) .idle = initWalk c 16 .idle := by
  rw [Nat.add_comm]
  cases h : c.bitMode <;> simp [initWalk, initNext, h]

/-- The state table is the eleven steps cut up differently: with the events up to step 8, which write no register,
joined to one step (`weave_join`), the two are the same, but for the empty step of `I_DONE`. -/
theorem weave_initWalk (c : Config) : weave [] (initWalk c 16 .idle) = initProgram c := by
  have hcommand := commandEvents_ne_nil (initBus c)
  have hdone : weave [] [([], [])] = weave [] [] := rfl
  cases h : c.bitMode <;>
    simp only [initProgram, initSteps, initHandshake, h, initHandshake4, initHandshake8, initWalk, initNext, initEmits,
      initPowerOn, weave_silent, weave_join, List.append_assoc, List.cons_append, List.nil_append, ne_eq, reduceCtorEq,
      not_false_eq_true] <;>
    simp [weave_step, hcommand, hdone]

/-- Settles O32, by the length of the state table (`initWalk_idle`) and what it does (`weave_initWalk`). -/
theorem initStateTableIsTheElevenSteps : Obligations.InitStateTableIsTheElevenSteps :=
  fun c => ⟨weave_initWalk c, fun k => by rw [initWalk_idle, weave_initWalk]⟩

/-! ## The size of `INIT` (R174) -/

theorem length_initForceLow (c : Config) : (initForceLow c).length = 2 + (if c.rwWired then 1 else 0) := by
  cases h : c.rwWired <;> simp [initForceLow, h]

theorem minDuration_initForceLow (c : Config) : minDuration (initForceLow c) = 0 := by
  cases h : c.rwWired <;> simp [initForceLow, h, Event.guard]

theorem length_initHandshake (c : Config) :
    (initHandshake c).length =
      (match c.bitMode with
        | .bit4 => 43
        | .bit8 => 3 * transferEvents (initBus c) + 2) := by
  cases h : c.bitMode with
  | bit4 => simp [initHandshake, h, initHandshake4]
  | bit8 => simp [initHandshake, h, initHandshake8, commandEvents, length_transferByte]; omega

theorem minDuration_initHandshake {c : Config} (ht : c.timing = sourceTiming) :
    minDuration (initHandshake c) =
      (match c.bitMode with
        | .bit4 => 9558
        | .bit8 => 4956) := by
  have htiming : (initBus c).timing = sourceTiming := ht
  cases h : c.bitMode with
  | bit4 => simp [initHandshake, h, initHandshake4, htiming, ht, sourceTiming, Event.guard]
  | bit8 =>
    simp [initHandshake, h, initHandshake8, commandEvents, minDuration_transferByte, transferTime, initBus_dl, htiming,
      ht, sourceTiming, Event.guard]

/-- The event count of `INIT`: one guard, step 6, the handshake, four commands and one guard. -/
theorem length_eventsOf_init (s : State) :
    (eventsOf .init s).length =
      2 + (initForceLow s.config).length + (initHandshake s.config).length
        + 4 * transferEvents (initBus s.config) := by
  rw [eventsOf, programOf, initProgram_events]
  simp only [List.length_append, commandEvents, length_transferByte, initPowerOn, List.length_singleton]
  omega

theorem minDuration_eventsOf_init (s : State) :
    minDuration (eventsOf .init s) =
      s.config.timing.tPowerOn.val + minDuration (initForceLow s.config) + minDuration (initHandshake s.config)
        + 4 * transferTime (initBus s.config) + s.config.timing.tClear := by
  rw [eventsOf, programOf, initProgram_events]
  simp only [minDuration_append, minDuration_cons, minDuration_nil, Event.guard, commandEvents,
    minDuration_transferByte, initPowerOn]
  omega

/-- Settles O30: the trace grows by the events of `INIT`, counted and summed for each width and wiring. -/
theorem initHasItsStatedSize : Obligations.InitHasItsStatedSize := by
  intro s t _ ht h
  have htrace : t.trace = s.trace ++ eventsOf .init s := exec_init_trace h
  have htiming : (initBus s.config).timing = sourceTiming := ht
  have hwired : (initBus s.config).rwWired = s.config.rwWired := rfl
  rw [htrace, List.length_append, minDuration_append, length_eventsOf_init, minDuration_eventsOf_init,
    length_initForceLow, length_initHandshake, minDuration_initForceLow, minDuration_initHandshake ht, transferEvents,
    transferTime, initBus_dl, htiming, hwired, ht]
  cases s.config.bitMode <;> cases s.config.rwWired <;> exact ⟨rfl, rfl⟩

/-! ## The spacing of its latch points (70_reset_and_hazards.md R271, R281) -/

/-- Begun with `E` low and `g` after the last latch point, `es` has its latch points after the gaps `gaps`, writes no
line within `settle` of a latch point, and ends with `E` low and `g'` after its last latch point: so what follows it is
read from there on. -/
structure Spaced (settle g : Nat) (es : List Event) (gaps : List Nat) (g' : Nat) : Prop where
  latchGaps_append : ∀ fs, latchGaps false g (es ++ fs) = gaps ++ latchGaps false g' fs
  settledWrites_append : ∀ fs, settledWrites settle false g (es ++ fs) = settledWrites settle false g' fs
  gapAfter_append : ∀ fs, gapAfter false g (es ++ fs) = gapAfter false g' fs

theorem Spaced.append {settle g g' g'' : Nat} {es fs : List Event} {gaps gaps' : List Nat}
    (he : Spaced settle g es gaps g') (hf : Spaced settle g' fs gaps' g'') :
    Spaced settle g (es ++ fs) (gaps ++ gaps') g'' where
  latchGaps_append k := by
    rw [List.append_assoc, he.latchGaps_append, hf.latchGaps_append, List.append_assoc]
  settledWrites_append k := by rw [List.append_assoc, he.settledWrites_append, hf.settledWrites_append]
  gapAfter_append k := by rw [List.append_assoc, he.gapAfter_append, hf.gapAfter_append]

theorem spaced_delay (settle g n : Nat) : Spaced settle g [.delay n] [] (g + n) :=
  ⟨fun _ => rfl, fun _ => rfl, fun _ => rfl⟩

/-- A line write that does not raise `E`. -/
def Event.isLowWrite : Event → Bool
  | .setLine .e v => !v
  | .setLine (.d _) _ | .setLine .rs _ | .setLine .rw _ => true
  | .delay _ => false

/-- Line writes that do not raise `E` have no latch point, `E` being low, and take no time. -/
theorem spaced_lowWrites {settle g : Nat} (hg : settle ≤ g) {es : List Event}
    (h : es.all Event.isLowWrite = true) : Spaced settle g es [] g := by
  induction es with
  | nil => exact ⟨fun _ => rfl, fun _ => rfl, fun _ => rfl⟩
  | cons e es ih =>
    rw [List.all_cons, Bool.and_eq_true] at h
    obtain ⟨he, hes⟩ := h
    have hone : Spaced settle g [e] [] g := by
      cases e with
      | delay n => exact Bool.noConfusion he
      | setLine l v =>
        cases l <;> constructor <;> intro fs <;>
          simp_all [Event.isLowWrite, latchGaps, settledWrites, gapAfter]
    exact hone.append (ih hes)

/-- A strobe has its one latch point `T_SETUP` and `T_PULSE` after its start (R131). -/
theorem spaced_pulseStrobe {settle g : Nat} (hg : settle ≤ g) (t : Timing) :
    Spaced settle g (pulseStrobe t) [g + t.tSetup + t.tPulse] t.tSettle := by
  have h1 : settle ≤ g + t.tSetup := by omega
  have h2 : settle ≤ g + t.tSetup + t.tPulse := by omega
  constructor <;> intro fs <;> simp [pulseStrobe, latchGaps, settledWrites, gapAfter, hg, h1, h2]

/-- An 8-line transfer has the latch point of its strobe (R133). -/
theorem spaced_drive8 {settle g : Nat} (hg : settle ≤ g) (b : BusParams) (v : Byte) :
    Spaced settle g (drive8 b v) [g + b.timing.tSetup + b.timing.tPulse] b.timing.tSettle :=
  (spaced_lowWrites hg rfl).append (spaced_pulseStrobe hg b.timing)

/-- The same for a 4-line transfer (R134). -/
theorem spaced_drive4 {settle g : Nat} (hg : settle ≤ g) (b : BusParams) (n : Byte) :
    Spaced settle g (drive4 b n) [g + b.timing.tSetup + b.timing.tPulse] b.timing.tSettle :=
  (spaced_lowWrites hg (by cases b.nibbleBase <;> rfl)).append (spaced_pulseStrobe hg b.timing)

theorem spaced_selectRegister {settle g : Nat} (hg : settle ≤ g) (b : BusParams) (mode : RegSel) :
    Spaced settle g (selectRegister b mode) [] g :=
  spaced_lowWrites hg (by cases hw : b.rwWired <;> simp [selectRegister, hw, Event.isLowWrite])

/-- A byte transfer has one latch point, or two with `T_SETTLE` between its nibbles (R136). -/
theorem spaced_transferByte {settle g : Nat} (hg : settle ≤ g) {b : BusParams} (hb : settle ≤ b.timing.tSettle)
    (v : Byte) (mode : RegSel) :
    Spaced settle g (transferByte b v mode)
      ((g + b.timing.tSetup + b.timing.tPulse) ::
        (if b.dl then [] else [b.timing.tSettle + b.timing.tSetup + b.timing.tPulse])) b.timing.tSettle := by
  refine (spaced_selectRegister hg b mode).append ?_
  cases hd : b.dl with
  | true => exact spaced_drive8 hg b v
  | false => exact (spaced_drive4 hg b (highNibble v)).append (spaced_drive4 hb b (lowNibble v))

/-- Steps 5 and 6: the power-on guard and no latch point, `E` being low (R165, R166). -/
theorem spaced_initForceLow {settle : Nat} {c : Config} (h : settle ≤ c.timing.tPowerOn.val) :
    Spaced settle 0 (initPowerOn c ++ initForceLow c) [] c.timing.tPowerOn.val := by
  have hlow : (initForceLow c).all Event.isLowWrite = true := by
    cases hw : c.rwWired <;> simp [initForceLow, hw, Event.isLowWrite]
  have hpower := spaced_delay settle 0 c.timing.tPowerOn.val
  rw [Nat.zero_add] at hpower
  exact hpower.append (spaced_lowWrites h hlow)

/-- Under the source's timing a raw nibble of `INIT` has one latch point and is settled at its end. -/
theorem spaced_initNibble {c : Config} (ht : c.timing = sourceTiming) {g : Nat} (hg : 100 ≤ g) (n : Byte) :
    Spaced 100 g (drive4 (initBus c) n) [g + 2] 100 := by
  have htiming : (initBus c).timing = sourceTiming := ht
  simpa [htiming, sourceTiming] using spaced_drive4 hg (initBus c) n

/-- Under the source's timing a command of `INIT` has one latch point, or two 102 µs apart. -/
theorem spaced_initCommand {c : Config} (ht : c.timing = sourceTiming) {g : Nat} (hg : 100 ≤ g) (v : Byte) :
    Spaced 100 g (commandEvents (initBus c) v)
      ((g + 2) :: (match c.bitMode with
        | .bit4 => [102]
        | .bit8 => [])) 100 := by
  have htiming : (initBus c).timing = sourceTiming := ht
  have h := spaced_transferByte hg (b := initBus c) (by rw [htiming]; decide) v .command
  rw [initBus_dl, htiming] at h
  cases hb : c.bitMode <;> rw [hb] at h <;> exact h

/-- The handshake under the source's timing (R167, R168, R274). -/
theorem spaced_initHandshake {c : Config} (ht : c.timing = sourceTiming) {g : Nat} (hg : 100 ≤ g) :
    Spaced 100 g (initHandshake c)
      ((g + 2) :: (match c.bitMode with
        | .bit4 => [4602, 4602, 252]
        | .bit8 => [4602, 252])) 100 := by
  have hd := spaced_delay 100 100
  cases h : c.bitMode with
  | bit4 =>
    have hn := @spaced_initNibble c ht
    simp only [initHandshake, initHandshake4, h, ht]
    exact ((((((hn hg _).append (hd 4500)).append (hn (by decide) _)).append (hd 4500)).append
      (hn (by decide) _)).append (hd 150)).append (hn (by decide) _)
  | bit8 =>
    have hc : ∀ {g}, 100 ≤ g → ∀ v, Spaced 100 g (commandEvents (initBus c) v) [g + 2] 100 := by
      simpa only [h] using @spaced_initCommand c ht
    simp only [initHandshake, initHandshake8, h, ht]
    exact ((((hc hg _).append (hd 4500)).append (hc (by decide) _)).append (hd 150)).append (hc (by decide) _)

/-- Steps 8 to 11 under the source's timing: 102 µs before each latch point, and `T_CLEAR` more after CLEARDISPLAY
(R169 to R172, R274). -/
theorem spaced_initCommandEvents {c : Config} (ht : c.timing = sourceTiming) :
    Spaced 100 100 (initCommandEvents c)
      (match c.bitMode with
        | .bit4 => [102, 102, 102, 102, 102, 102, 2102, 102]
        | .bit8 => [102, 102, 102, 2102]) 100 := by
  have hc := @spaced_initCommand c ht
  have hd := spaced_delay 100 100 2000
  have h := (((hc le_rfl (initFunctionSet c)).append
    (hc le_rfl (composite c.codes.displayControl c.codes.displayOn))).append
      ((hc le_rfl clearDisplayCode).append hd)).append
      (hc (by decide) (composite c.codes.entryModeSet c.codes.entryLeft))
  rw [initCommandEvents, ht]
  cases hb : c.bitMode <;> simp only [hb] at h <;> exact h

/-- The events of `INIT` in three parts: steps 5 and 6, the handshake, steps 8 to 11. -/
theorem eventsOf_init (s : State) :
    eventsOf .init s = (initPowerOn s.config ++ initForceLow s.config)
      ++ (initHandshake s.config ++ initCommandEvents s.config) := by
  simp only [eventsOf, programOf, initProgram_events, initCommandEvents, List.append_assoc]

/-- The whole of `INIT` under the source's timing, begun with `E` low. -/
theorem spaced_init {s : State} (ht : s.config.timing = sourceTiming) :
    Spaced 100 0 (eventsOf .init s)
      (match s.config.bitMode with
        | .bit4 => [50002, 4602, 4602, 252, 102, 102, 102, 102, 102, 102, 2102, 102]
        | .bit8 => [50002, 4602, 252, 102, 102, 102, 2102]) 100 := by
  have hpower : 100 ≤ s.config.timing.tPowerOn.val := by rw [ht]; decide
  have h := (spaced_initForceLow hpower).append
    ((spaced_initHandshake ht hpower).append (spaced_initCommandEvents ht))
  rw [eventsOf_init]
  rw [ht] at h
  cases hb : s.config.bitMode <;> simp only [hb] at h <;> exact h

/-- Settles O59, by the spacing of the whole of `INIT` with nothing after it. -/
theorem initLatchPointsAreSpaced : Obligations.InitLatchPointsAreSpaced := by
  intro s ht
  have h := spaced_init ht
  have hgaps := h.latchGaps_append []
  have hsettled := h.settledWrites_append []
  have hafter := h.gapAfter_append []
  rw [List.append_nil] at hgaps hsettled hafter
  refine ⟨?_, hsettled, hafter⟩
  rw [hgaps]
  cases s.config.bitMode <;> rfl

end Sys2Proof.Machine
end

section
/-! Proofs of the statements about the display operations (43_display_ops.md): the address of `SETCURSOR`, the requests
that set or clear a flag, the scrolls, the glyph upload, the text write, and the size of every request. -/

namespace Sys2Proof.Machine

open Sys2Proof.Safety

/-! ## The address of `SETCURSOR` (R194, R195) -/

/-- Settles O36: the first conjunct is the definition of the clamp, the others are arithmetic on it. -/
theorem rowClampNeverLeavesTheTable : Obligations.RowClampNeverLeavesTheTable := by
  intro row lineCount hlines
  have hclamp : (clampRow row lineCount).val = min (min row.toNat (4 - 1)) (lineCount.toNat - 1) := rfl
  rw [hclamp]
  refine ⟨rfl, ?_, ?_, ?_⟩ <;> omega

/-- Settles O35: `SETCURSOR` is one command, and the two clamps in order are the row it is sent for. -/
theorem setCursorSendsTheAddress : Obligations.SetCursorSendsTheAddress := by
  refine ⟨rfl, ?_⟩
  rintro col row s hs - - _ _ hrow rfl rfl
  exact ⟨rfl, exec_segment_nil_of_ready rfl (by simp) rfl hs⟩

/-! ## Setting and clearing one bit (section 4) -/

theorem setFlag_setFlag (flags bit : Byte) : setFlag (setFlag flags bit) bit = setFlag flags bit := by
  rw [setFlag, setFlag, BitVec.or_assoc, BitVec.or_self]

theorem clearFlag_clearFlag (flags bit : Byte) : clearFlag (clearFlag flags bit) bit = clearFlag flags bit := by
  rw [clearFlag, clearFlag, BitVec.and_assoc, BitVec.and_self]

/-- "+" leaves the bit set. -/
theorem setFlag_and_bit (flags bit : Byte) : setFlag flags bit &&& bit = bit := by
  ext i hi
  simp +contextual [setFlag]

/-- "−" leaves the bit clear. -/
theorem clearFlag_and_bit (flags bit : Byte) : clearFlag flags bit &&& bit = 0x00#8 := by
  ext i hi
  simp [clearFlag, Bool.and_assoc]

/-- "+" leaves the other bits. -/
theorem setFlag_and_not_bit (flags bit : Byte) : setFlag flags bit &&& ~~~bit = flags &&& ~~~bit := by
  ext i hi
  simp [setFlag, Bool.and_or_distrib_right]

/-- "−" leaves the other bits. -/
theorem clearFlag_and_not_bit (flags bit : Byte) : clearFlag flags bit &&& ~~~bit = flags &&& ~~~bit := by
  rw [clearFlag, BitVec.and_assoc, BitVec.and_self]

/-! ## The requests that set or clear a flag (R196 to R201, R204 to R207) -/

/-- The flag register a request of R210's table writes: `entryModeFlags` where `entry` holds, else
`displayControlFlags`. -/
def flagRegister (entry : Bool) (u : State) : Byte := if entry then u.entryModeFlags else u.displayControlFlags

/-- The micro-steps that write that register and send it. -/
def flagProgram (entry : Bool) (flags : Byte) (s : State) : List Micro :=
  if entry then entryModeProgram flags s else displayControlProgram flags s

/-- With the codes `k`, the request `i` applies `f` to its flag register and sends the new flags. -/
structure FlagRequest (entry : Bool) (k : Codes) (i : Instr) (f : Byte → Byte) : Prop where
  request : i.isRequest = true
  ne_init : i ≠ .init
  program : ∀ s : State, s.config.codes = k → programOf i s = flagProgram entry (f (flagRegister entry s)) s

/-- R210's table: a "+" request, its "−" request, whether they write `entryModeFlags`, and their bit. -/
def flagPairs (k : Codes) : List (Instr × Instr × Bool × Byte) :=
  [(.display, .noDisplay, false, k.displayOn), (.cursor, .noCursor, false, k.cursorOn),
    (.blink, .noBlink, false, k.blinkOn), (.ltr, .rtl, true, k.entryLeft),
    (.autoscroll, .noAutoscroll, true, k.shiftInc)]

/-- Of each pair the "+" sets the bit and the "−" clears it. -/
theorem flagRequest_of_mem_flagPairs {k : Codes} {plus minus : Instr} {entry : Bool} {bit : Byte}
    (h : (plus, minus, entry, bit) ∈ flagPairs k) :
    FlagRequest entry k plus (setFlag · bit) ∧ FlagRequest entry k minus (clearFlag · bit) := by
  simp only [flagPairs, List.mem_cons, Prod.mk.injEq, List.not_mem_nil, or_false] at h
  obtain ⟨rfl, rfl, rfl, rfl⟩ | ⟨rfl, rfl, rfl, rfl⟩ | ⟨rfl, rfl, rfl, rfl⟩ | ⟨rfl, rfl, rfl, rfl⟩ |
    ⟨rfl, rfl, rfl, rfl⟩ := h
  all_goals exact ⟨⟨rfl, Instr.noConfusion, fun s hk => hk ▸ rfl⟩, ⟨rfl, Instr.noConfusion, fun s hk => hk ▸ rfl⟩⟩

namespace FlagRequest

variable {k : Codes} {i : Instr} {f : Byte → Byte}

/-- In `READY` a request that writes `displayControlFlags` sends DISPLAYCONTROL with the new flags (R196). -/
theorem exec_displayControl (h : FlagRequest false k i f) {s : State} (hk : s.config.codes = k)
    (hs : s.pos = .ready) :
    exec i s = .next (({ s with displayControlFlags := f s.displayControlFlags } : State).emitAll
      (transferByte s.bus (k.displayControl ||| f s.displayControlFlags) .command)) := by
  have hp : programOf i s = displayControlProgram (f s.displayControlFlags) s := h.program s hk
  rw [exec_request_of_ready h.request h.ne_init hs, hp, State.performAll_displayControlProgram, displayControlProgram,
    segment_map_event, ← hk]
  rfl

/-- In `READY` a request that writes `entryModeFlags` sends ENTRYMODESET with the new flags (R204). -/
theorem exec_entryMode (h : FlagRequest true k i f) {s : State} (hk : s.config.codes = k) (hs : s.pos = .ready) :
    exec i s = .next (({ s with entryModeFlags := f s.entryModeFlags } : State).emitAll
      (transferByte s.bus (k.entryModeSet ||| f s.entryModeFlags) .command)) := by
  have hp : programOf i s = entryModeProgram (f s.entryModeFlags) s := h.program s hk
  rw [exec_request_of_ready h.request h.ne_init hs, hp, State.performAll_entryModeProgram, entryModeProgram,
    segment_map_event, ← hk]
  rfl

/-- In `READY` the request applies `f` to its register, leaves the other flag register, and is in `READY` again. -/
theorem registers {entry : Bool} (h : FlagRequest entry k i f) {s t : State} (hk : s.config.codes = k)
    (hs : s.pos = .ready) (ht : exec i s = .next t) :
    t.pos = .ready ∧ t.config = s.config ∧ t.bus = s.bus ∧ flagRegister entry t = f (flagRegister entry s) ∧
      flagRegister (!entry) t = flagRegister (!entry) s := by
  cases entry with
  | false =>
    rw [h.exec_displayControl hk hs] at ht
    cases ht
    simp [flagRegister, State.bus, hs]
  | true =>
    rw [h.exec_entryMode hk hs] at ht
    cases ht
    simp [flagRegister, State.bus, hs]

/-- The request a second time, `f` being idempotent: the same flags and the same events (R196, R210). -/
theorem twice {entry : Bool} (h : FlagRequest entry k i f) (hf : ∀ v, f (f v) = f v) {s t u : State}
    (hk : s.config.codes = k) (hs : s.pos = .ready) (ht : exec i s = .next t) (hu : exec i t = .next u) :
    flagRegister entry u = flagRegister entry t ∧ eventsOf i t = eventsOf i s := by
  obtain ⟨hready, hconfig, hbus, hflags, -⟩ := h.registers hk hs ht
  have hk' : t.config.codes = k := by rw [hconfig, hk]
  obtain ⟨-, -, -, hflags', -⟩ := h.registers hk' hready hu
  refine ⟨by rw [hflags', hflags, hf], ?_⟩
  rw [eventsOf, eventsOf, h.program t hk', h.program s hk, hflags, hf]
  cases entry <;> simp [flagProgram, displayControlProgram, entryModeProgram, hbus, hconfig]

end FlagRequest

/-- Settles O37: the three requests set their bit of `displayControlFlags`, and setting it is idempotent. -/
theorem displayCursorBlinkSetTheirBit : Obligations.DisplayCursorBlinkSetTheirBit := by
  refine ⟨⟨rfl, rfl, rfl, rfl⟩, ?_⟩
  intro s i op bit hs hmem
  obtain ⟨hop, h⟩ : encode s.config.terminator i = [op] ∧ FlagRequest false s.config.codes i (setFlag · bit) := by
    simp only [List.mem_cons, Prod.mk.injEq, List.not_mem_nil, or_false] at hmem
    obtain ⟨rfl, rfl, rfl⟩ | ⟨rfl, rfl, rfl⟩ | ⟨rfl, rfl, rfl⟩ := hmem
    · exact ⟨rfl, (flagRequest_of_mem_flagPairs (minus := .noDisplay) (by simp [flagPairs])).1⟩
    · exact ⟨rfl, (flagRequest_of_mem_flagPairs (minus := .noCursor) (by simp [flagPairs])).1⟩
    · exact ⟨rfl, (flagRequest_of_mem_flagPairs (minus := .noBlink) (by simp [flagPairs])).1⟩
  exact ⟨hop, h.exec_displayControl rfl hs, fun t u => h.twice (setFlag_setFlag · bit) rfl hs⟩

/-- Settles O38: the three requests clear their bit of `displayControlFlags`. -/
theorem noDisplayCursorBlinkClearTheirBit : Obligations.NoDisplayCursorBlinkClearTheirBit := by
  refine ⟨⟨rfl, rfl, rfl, rfl⟩, ?_⟩
  intro s i op bit hs hmem
  obtain ⟨hop, h⟩ : encode s.config.terminator i = [op] ∧ FlagRequest false s.config.codes i (clearFlag · bit) := by
    simp only [List.mem_cons, Prod.mk.injEq, List.not_mem_nil, or_false] at hmem
    obtain ⟨rfl, rfl, rfl⟩ | ⟨rfl, rfl, rfl⟩ | ⟨rfl, rfl, rfl⟩ := hmem
    · exact ⟨rfl, (flagRequest_of_mem_flagPairs (plus := .display) (by simp [flagPairs])).2⟩
    · exact ⟨rfl, (flagRequest_of_mem_flagPairs (plus := .cursor) (by simp [flagPairs])).2⟩
    · exact ⟨rfl, (flagRequest_of_mem_flagPairs (plus := .blink) (by simp [flagPairs])).2⟩
  exact ⟨hop, h.exec_displayControl rfl hs⟩

/-- Settles O40: the two requests set their bit of `entryModeFlags`. -/
theorem ltrAutoscrollSetTheirBit : Obligations.LtrAutoscrollSetTheirBit := by
  refine ⟨⟨rfl, rfl, rfl⟩, ?_⟩
  intro s i op bit hs hmem
  obtain ⟨hop, h⟩ : encode s.config.terminator i = [op] ∧ FlagRequest true s.config.codes i (setFlag · bit) := by
    simp only [List.mem_cons, Prod.mk.injEq, List.not_mem_nil, or_false] at hmem
    obtain ⟨rfl, rfl, rfl⟩ | ⟨rfl, rfl, rfl⟩ := hmem
    · exact ⟨rfl, (flagRequest_of_mem_flagPairs (minus := .rtl) (by simp [flagPairs])).1⟩
    · exact ⟨rfl, (flagRequest_of_mem_flagPairs (minus := .noAutoscroll) (by simp [flagPairs])).1⟩
  exact ⟨hop, h.exec_entryMode rfl hs⟩

/-- Settles O41: the two requests clear their bit of `entryModeFlags`. -/
theorem rtlNoAutoscrollClearTheirBit : Obligations.RtlNoAutoscrollClearTheirBit := by
  refine ⟨⟨rfl, rfl, rfl⟩, ?_⟩
  intro s i op bit hs hmem
  obtain ⟨hop, h⟩ : encode s.config.terminator i = [op] ∧ FlagRequest true s.config.codes i (clearFlag · bit) := by
    simp only [List.mem_cons, Prod.mk.injEq, List.not_mem_nil, or_false] at hmem
    obtain ⟨rfl, rfl, rfl⟩ | ⟨rfl, rfl, rfl⟩ := hmem
    · exact ⟨rfl, (flagRequest_of_mem_flagPairs (plus := .ltr) (by simp [flagPairs])).2⟩
    · exact ⟨rfl, (flagRequest_of_mem_flagPairs (plus := .autoscroll) (by simp [flagPairs])).2⟩
  exact ⟨hop, h.exec_entryMode rfl hs⟩

/-! ## Two requests of a pair, one after the other (R210) -/

/-- Two flag requests on one register, the second in the state the first leaves: their functions one after the other. -/
theorem FlagRequest.comp {entry : Bool} {k : Codes} {i j : Instr} {f g : Byte → Byte} (hi : FlagRequest entry k i f)
    (hj : FlagRequest entry k j g) {s t u : State} (hk : s.config.codes = k) (hs : s.pos = .ready)
    (ht : exec i s = .next t) (hu : exec j t = .next u) :
    flagRegister entry u = g (f (flagRegister entry s)) := by
  obtain ⟨hready, hconfig, -, hflags, -⟩ := hi.registers hk hs ht
  obtain ⟨-, -, -, hflags', -⟩ := hj.registers (by rw [hconfig, hk]) hready hu
  rw [hflags', hflags]

/-- Settles O45: each law of a pair is a law of `setFlag` and `clearFlag` on its register. -/
theorem setAndClearLaws : Obligations.SetAndClearLaws := by
  intro k plus minus entry bit hmem flags other hregister hother
  obtain ⟨hplus, hminus⟩ := flagRequest_of_mem_flagPairs hmem
  obtain rfl : flags = flagRegister entry := hregister
  obtain rfl : other = flagRegister (!entry) := hother.trans (by funext u; cases entry <;> rfl)
  refine ⟨fun s t u hk hs => ⟨fun ht hu => (hplus.twice (setFlag_setFlag · bit) hk hs ht hu).1,
    fun ht hu => (hminus.twice (clearFlag_clearFlag · bit) hk hs ht hu).1, fun ht hu => ?_, fun ht hu => ?_,
    fun ht => ?_, fun ht => ?_⟩, fun s t u hk hs ht hu => ?_⟩
  · exact hplus.comp hminus hk hs ht hu ▸ clearFlag_and_bit _ bit
  · exact hminus.comp hplus hk hs ht hu ▸ setFlag_and_bit _ bit
  · obtain ⟨-, -, -, hflags, hkept⟩ := hplus.registers hk hs ht
    exact ⟨hflags ▸ setFlag_and_not_bit _ bit, hkept⟩
  · obtain ⟨-, -, -, hflags, hkept⟩ := hminus.registers hk hs ht
    exact ⟨hflags ▸ clearFlag_and_not_bit _ bit, hkept⟩
  · have hclear : flagRegister entry u &&& bit = 0x00#8 := hplus.comp hminus hk hs ht hu ▸ clearFlag_and_bit _ bit
    exact hclear ▸ eq_comm

/-! ## The requests that write no register (R202, R203, R208, R209) -/

/-- Settles O39: each scroll is one command. -/
theorem scrollSendsItsByte : Obligations.ScrollSendsItsByte := by
  refine ⟨⟨rfl, rfl⟩, fun s hs => ⟨rfl, rfl, ?_⟩⟩
  rintro _ rfl
  exact ⟨exec_segment_nil_of_ready rfl (by simp) rfl hs, exec_segment_nil_of_ready rfl (by simp) rfl hs⟩

/-- `CREATECHAR` in `READY` sends the address of its slot and then the glyph (R208). -/
theorem exec_createChar_of_ready (slot : Byte) (glyph : Vector Byte 8) {s : State} (hs : s.pos = .ready) :
    exec (.createChar slot glyph) s = .next (s.emitAll
      (commandEvents s.bus (composite s.config.codes.setCgramAddr (cgramAddress slot))
        ++ writeBytesEvents s.bus glyph.toList)) :=
  exec_segment_nil_of_ready rfl (by simp) rfl hs

/-- Settles O42: the slot enters by its masked address only. -/
theorem createCharUploadsTheGlyph : Obligations.CreateCharUploadsTheGlyph := by
  refine ⟨rfl, fun slot glyph s hs => ⟨rfl, exec_createChar_of_ready slot glyph hs, fun slot' hslot => ?_⟩⟩
  have haddress : cgramAddress slot' = cgramAddress slot := congrArg (fun masked : Byte => masked <<< 3) hslot.symm
  rw [exec_createChar_of_ready slot' glyph hs, exec_createChar_of_ready slot glyph hs, haddress]

/-- `WRSTR` in `READY` sends the characters before the terminator (R209). -/
theorem exec_wrStr_of_ready (text : List Byte) {s : State} (hs : s.pos = .ready) :
    exec (.wrStr text) s = .next (s.emitAll (writeBytesEvents s.bus (textBytes s.config.terminator text))) :=
  exec_segment_nil_of_ready rfl (by simp) rfl hs

/-- A text without the terminator is sent whole (30_encoding.md R92, R95). -/
theorem textBytes_of_wellFormed {terminator : Byte} {text : List Byte}
    (h : (Instr.wrStr text).wellFormed terminator = true) : textBytes terminator text = text :=
  List.takeWhile_eq_self_iff.mpr (List.all_eq_true.mp h)

/-- Settles O43: a well-formed text is sent whole, and the empty text has no event. -/
theorem wrStrSendsItsCharacters : Obligations.WrStrSendsItsCharacters := by
  refine ⟨rfl, fun text s hs htext => ⟨rfl, ?_, exec_wrStr_of_ready [] hs⟩⟩
  rw [exec_wrStr_of_ready text hs, textBytes_of_wellFormed htext]
  rfl

/-! ## The size of every request but `INIT` (R212) -/

/-- An event list of `n` transfers with the parameters `b` and then guards of `wait` µs, `guards` of them. -/
def HasSize (b : BusParams) (n guards wait : Nat) (es : List Event) : Prop :=
  es.length = n * transferEvents b + guards ∧ minDuration es = n * transferTime b + wait

theorem hasSize_segment_transferByte (b : BusParams) (ws : List RegWrite) (v : Byte) (mode : RegSel) :
    HasSize b 1 0 0 ((segment ws (transferByte b v mode)).map Micro.event) := by
  simp [HasSize, length_transferByte, minDuration_transferByte]

theorem hasSize_guardedProgram (v : Byte) (guardTime : Timing → Nat) (s : State) :
    HasSize s.bus 1 1 (guardTime s.config.timing) ((guardedProgram v guardTime s).map Micro.event) := by
  simp [HasSize, guardedProgram, commandEvents, length_transferByte, minDuration_transferByte, Event.guard]

theorem hasSize_createCharProgram (slot : Byte) (glyph : Vector Byte 8) (s : State) :
    HasSize s.bus 9 0 0 ((createCharProgram slot glyph s).map Micro.event) := by
  rw [HasSize, createCharProgram, segment_map_event, List.length_append, minDuration_append, commandEvents,
    length_transferByte, minDuration_transferByte, length_writeBytesEvents, minDuration_writeBytesEvents,
    Vector.length_toList]
  omega

theorem hasSize_wrStrProgram (text : List Byte) (s : State) :
    HasSize s.bus (textBytes s.config.terminator text).length 0 0 ((wrStrProgram text s).map Micro.event) := by
  rw [HasSize, wrStrProgram, segment_map_event, length_writeBytesEvents, minDuration_writeBytesEvents]
  exact ⟨rfl, rfl⟩

theorem transferTime_of_sourceTiming {b : BusParams} (h : b.timing = sourceTiming) :
    transferTime b = if b.dl then 102 else 204 := by
  cases hd : b.dl <;> simp [transferTime, hd, h, sourceTiming]

/-- Settles O48, by the shapes of the requests: one transfer, a command and a guard, and the data writes of
`CREATECHAR` and `WRSTR`. -/
theorem requestsHaveTheirStatedSize : Obligations.RequestsHaveTheirStatedSize := by
  rintro i s hr hi ht B T rfl hT
  rw [← transferTime_of_sourceTiming (b := s.bus) ht] at hT
  subst hT
  have hone : ∀ {es : List Event}, HasSize s.bus 1 0 0 es →
      es.length = transferEvents s.bus ∧ minDuration es = transferTime s.bus := by
    intro es h
    simpa [HasSize] using h
  have hguarded : ∀ {es : List Event}, HasSize s.bus 1 1 2000 es →
      es.length = transferEvents s.bus + 1 ∧ minDuration es = transferTime s.bus + 2000 := by
    intro es h
    simpa [HasSize] using h
  cases i
  case init => exact absurd rfl hi
  case clear =>
    have h := hasSize_guardedProgram clearDisplayCode Timing.tClear s
    rw [ht] at h
    exact hguarded h
  case home =>
    have h := hasSize_guardedProgram s.config.codes.returnHome Timing.tHome s
    rw [ht] at h
    exact hguarded h
  case createChar slot glyph => exact hasSize_createCharProgram slot glyph s
  case wrStr text => exact hasSize_wrStrProgram text s
  all_goals first | exact Bool.noConfusion hr | exact hone (hasSize_segment_transferByte _ _ _ _)

end Sys2Proof.Machine
end

section
/-! Proofs of the statements about exceptions and the environment (60_exceptions.md): the guards asked of the Delay
Service, and the block with nothing to do. -/

namespace Sys2Proof.Machine

/-! ## The guards of a request (R241) -/

/-- The timing parameters of 00_scope.md R8. -/
@[simp] def timingGuards (t : Timing) : List Nat :=
  [t.tSetup, t.tPulse, t.tSettle, t.tPowerOn.val, t.tH4_1, t.tH4_2, t.tH4_3, t.tH8_1, t.tH8_2, t.tClear, t.tHome]

/-- Every guard of an event list is one of the timing parameters, whatever their values. -/
def GuardsFrom (t : Timing) (es : List Event) : Prop := ∀ n, Event.delay n ∈ es → n ∈ timingGuards t

theorem guardsFrom_nil (t : Timing) : GuardsFrom t [] := fun _ h => absurd h List.not_mem_nil

theorem guardsFrom_delay {t : Timing} {n : Nat} (hn : n ∈ timingGuards t) : GuardsFrom t [.delay n] := by
  simpa [GuardsFrom] using hn

theorem GuardsFrom.append {t : Timing} {es fs : List Event} (he : GuardsFrom t es) (hf : GuardsFrom t fs) :
    GuardsFrom t (es ++ fs) :=
  fun n h => (List.mem_append.mp h).elim (he n) (hf n)

/-- A strobe asks for its three guards (40_bus_transfer.md R131). -/
theorem guardsFrom_pulseStrobe (t : Timing) : GuardsFrom t (pulseStrobe t) := by
  simp [GuardsFrom, pulseStrobe]

theorem guardsFrom_drive8 (b : BusParams) (v : Byte) : GuardsFrom b.timing (drive8 b v) :=
  GuardsFrom.append (by simp [GuardsFrom]) (guardsFrom_pulseStrobe b.timing)

theorem guardsFrom_drive4 (b : BusParams) (n : Byte) : GuardsFrom b.timing (drive4 b n) :=
  GuardsFrom.append (by simp [GuardsFrom]) (guardsFrom_pulseStrobe b.timing)

theorem guardsFrom_selectRegister (b : BusParams) (mode : RegSel) : GuardsFrom b.timing (selectRegister b mode) := by
  cases hw : b.rwWired <;> simp [GuardsFrom, selectRegister, hw]

/-- A byte transfer has the guards of its strobes, one or two (R136). -/
theorem guardsFrom_transferByte (b : BusParams) (v : Byte) (mode : RegSel) :
    GuardsFrom b.timing (transferByte b v mode) := by
  refine (guardsFrom_selectRegister b mode).append ?_
  cases b.dl with
  | true => exact guardsFrom_drive8 b v
  | false => exact (guardsFrom_drive4 b (highNibble v)).append (guardsFrom_drive4 b (lowNibble v))

theorem guardsFrom_writeBytesEvents (b : BusParams) (vs : List Byte) :
    GuardsFrom b.timing (writeBytesEvents b vs) := by
  induction vs with
  | nil => exact guardsFrom_nil _
  | cons v vs ih => exact (guardsFrom_transferByte b v .data).append ih

/-- A request that is one transfer, with or without a register write. -/
theorem guardsFrom_segment_transferByte (b : BusParams) (ws : List RegWrite) (v : Byte) (mode : RegSel) :
    GuardsFrom b.timing ((segment ws (transferByte b v mode)).map Micro.event) := by
  rw [segment_map_event]
  exact guardsFrom_transferByte b v mode

/-- A request that is one command and then a wait (43_display_ops.md R192, R193). -/
theorem guardsFrom_guardedProgram (v : Byte) {guardTime : Timing → Nat} (hguard : ∀ t, guardTime t ∈ timingGuards t)
    (s : State) : GuardsFrom s.config.timing ((guardedProgram v guardTime s).map Micro.event) := by
  rw [guardedProgram, segment_map_event]
  exact (guardsFrom_transferByte s.bus v .command).append (guardsFrom_delay (hguard _))

/-- `INIT` steps 5 and 6 (42_init_sequencer.md R165, R166). -/
theorem guardsFrom_initForceLow (c : Config) : GuardsFrom c.timing (initPowerOn c ++ initForceLow c) := by
  cases hw : c.rwWired <;> simp [GuardsFrom, initPowerOn, initForceLow, hw]

/-- `INIT` step 7 in the two widths (R167, R168). -/
theorem guardsFrom_initHandshake (c : Config) : GuardsFrom c.timing (initHandshake c) := by
  cases h : c.bitMode with
  | bit4 =>
    have hn : ∀ n, GuardsFrom c.timing (drive4 (initBus c) n) := guardsFrom_drive4 (initBus c)
    simp only [initHandshake, h, initHandshake4]
    exact ((((((hn _).append (guardsFrom_delay (by simp))).append (hn _)).append
      (guardsFrom_delay (by simp))).append (hn _)).append
      (guardsFrom_delay (by simp))).append (hn _)
  | bit8 =>
    have hc : GuardsFrom c.timing (commandEvents (initBus c) (initFunctionSet c)) :=
      guardsFrom_transferByte (initBus c) _ .command
    simp only [initHandshake, h, initHandshake8]
    exact (((hc.append (guardsFrom_delay (by simp))).append hc).append
      (guardsFrom_delay (by simp))).append hc

/-- `INIT` steps 8 to 11 (R169 to R172). -/
theorem guardsFrom_initCommandEvents (c : Config) : GuardsFrom c.timing (initCommandEvents c) := by
  have hc : ∀ v, GuardsFrom c.timing (commandEvents (initBus c) v) := fun v =>
    guardsFrom_transferByte (initBus c) v .command
  exact (((hc _).append (hc _)).append ((hc _).append (guardsFrom_delay (by simp)))).append (hc _)

/-- Every guard of a request is one of the timing parameters of its configuration: by the shapes of the requests, a bus
row being none. -/
theorem guardsFrom_eventsOf (i : Instr) (s : State) : GuardsFrom s.config.timing (eventsOf i s) := by
  cases i
  case init =>
    rw [eventsOf_init]
    exact (guardsFrom_initForceLow _).append
      ((guardsFrom_initHandshake _).append (guardsFrom_initCommandEvents _))
  case clear => exact guardsFrom_guardedProgram _ (fun t => by simp) s
  case home => exact guardsFrom_guardedProgram _ (fun t => by simp) s
  case createChar slot glyph =>
    rw [eventsOf, programOf, createCharProgram, segment_map_event]
    exact (guardsFrom_transferByte s.bus _ .command).append (guardsFrom_writeBytesEvents s.bus _)
  case wrStr text =>
    rw [eventsOf, programOf, wrStrProgram, segment_map_event]
    exact guardsFrom_writeBytesEvents s.bus _
  case clearDisplay | returnHome | entryModeSet | displayControl | cursorShift | functionSet | setCgramAddr
      | setDdramAddr | handshake3 | handshake2 => exact guardsFrom_nil _
  all_goals exact guardsFrom_segment_transferByte s.bus _ _ _

/-- Settles O60: every guard is a timing parameter (`guardsFrom_eventsOf`), and the source's parameters have the six
values. -/
theorem guardsAreOfTheStatedSet : Obligations.GuardsAreOfTheStatedSet := by
  intro i s n ht hn
  have hsource : ∀ k ∈ timingGuards sourceTiming, k ∈ [1, 100, 150, 2000, 4500, 50000] := by decide
  have hguard := guardsFrom_eventsOf i s n hn
  rw [ht] at hguard
  exact hsource n hguard

/-! ## The block with nothing to do (R248, 70_reset_and_hazards.md R260) -/

theorem step_of_decode_incomplete {s : State} (hn : ∀ p, s.pos ≠ .running p)
    (h : decode s.config.terminator s.inbox = .error .incomplete) : step s = .next s := by
  have hanswer := ((State.advance_cases exec s).resolve_left fun ⟨p, hp, _⟩ => hn p hp).2
  rw [h] at hanswer
  simpa [step] using hanswer

theorem decode_nil (terminator : Byte) : decode terminator [] = .error .incomplete := rfl

/-- Settles O7: an idle step with an incomplete request leaves the state, and an instance just created is idle with no
byte offered. -/
theorem idleBlockDoesNothing : Obligations.IdleBlockDoesNothing :=
  ⟨fun _ hn h => step_of_decode_incomplete hn h,
    fun c => step_of_decode_incomplete (State.create_idle c) (decode_nil c.terminator)⟩

end Sys2Proof.Machine
end

section
/-! Proof of the statement about the spacing of the latch points of every request (70_reset_and_hazards.md R271, R281). -/

namespace Sys2Proof.Machine

/-- Begun with `E` low and settled, `es` has its latch points at least `T_SETTLE + T_SETUP + T_PULSE` apart, writes no
line within `T_SETTLE` of one, and ends settled: so such lists can follow each other. -/
def KeepsSpacing (t : Timing) (es : List Event) : Prop :=
  ∀ g, t.tSettle ≤ g → ∃ gaps g', Spaced t.tSettle g es gaps g' ∧
    (∀ k ∈ gaps, t.tSettle + t.tSetup + t.tPulse ≤ k) ∧ t.tSettle ≤ g'

theorem KeepsSpacing.append {t : Timing} {es fs : List Event} (he : KeepsSpacing t es) (hf : KeepsSpacing t fs) :
    KeepsSpacing t (es ++ fs) := by
  intro g hg
  obtain ⟨gaps, g', hes, hgaps, hg'⟩ := he g hg
  obtain ⟨gaps', g'', hfs, hgaps', hg''⟩ := hf g' hg'
  exact ⟨gaps ++ gaps', g'', hes.append hfs, List.forall_mem_append.mpr ⟨hgaps, hgaps'⟩, hg''⟩

theorem keepsSpacing_delay (t : Timing) (n : Nat) : KeepsSpacing t [.delay n] :=
  fun g hg => ⟨[], g + n, spaced_delay _ g n, List.forall_mem_nil _, Nat.le_add_right_of_le hg⟩

theorem keepsSpacing_lowWrites (t : Timing) {es : List Event} (h : es.all Event.isLowWrite = true) :
    KeepsSpacing t es :=
  fun g hg => ⟨[], g, spaced_lowWrites hg h, List.forall_mem_nil _, hg⟩

/-- One latch point `T_SETUP` and `T_PULSE` after a settled start is far enough from the one before (R131). -/
theorem keepsSpacing_of_spaced_strobe {t : Timing} {es : List Event}
    (h : ∀ {g}, t.tSettle ≤ g → Spaced t.tSettle g es [g + t.tSetup + t.tPulse] t.tSettle) : KeepsSpacing t es :=
  fun g hg => ⟨_, _, h hg, List.forall_mem_singleton.mpr (by omega), le_rfl⟩

/-- Framed events keep the spacing under any timing: their latch points are those of whole transfers. -/
theorem Framed.keepsSpacing {b : BusParams} {es : List Event} (h : Framed b es) : KeepsSpacing b.timing es := by
  induction h with
  | nil => exact keepsSpacing_lowWrites _ rfl
  | guard n _ ih => exact (keepsSpacing_delay _ n).append ih
  | rs v _ ih => exact (keepsSpacing_lowWrites _ (es := [.setLine .rs v]) rfl).append ih
  | rw _ _ ih => exact (keepsSpacing_lowWrites _ (es := [.setLine .rw false]) rfl).append ih
  | eLow _ ih => exact (keepsSpacing_lowWrites _ (es := [.setLine .e false]) rfl).append ih
  | byte v _ _ ih => exact (keepsSpacing_of_spaced_strobe fun hg => spaced_drive8 hg b v).append ih
  | nibble n _ _ ih => exact (keepsSpacing_of_spaced_strobe fun hg => spaced_drive4 hg b n).append ih

/-- Whichever flags frame a request, its transfers have the configured timing. -/
theorem busOf_timing (i : Instr) (s : State) : (busOf i s).timing = s.config.timing := by
  unfold busOf
  split <;> rfl

theorem keepsSpacing_eventsOf (i : Instr) (s : State) : KeepsSpacing s.config.timing (eventsOf i s) := by
  rw [← busOf_timing i s]
  exact (framed_eventsOf i s).keepsSpacing

/-- Settles O58: every request's event list keeps the spacing (`keepsSpacing_eventsOf`), read with nothing after it.
`INIT` keeps it too where it is begun settled. -/
theorem latchPointsAreSpaced : Obligations.LatchPointsAreSpaced := by
  intro i s g _ hg
  obtain ⟨gaps, g', h, hgaps, hg'⟩ := keepsSpacing_eventsOf i s g hg
  have hlatch := h.latchGaps_append []
  have hsettled := h.settledWrites_append []
  have hafter := h.gapAfter_append []
  rw [List.append_nil] at hlatch hsettled hafter
  rw [hlatch, hsettled, hafter]
  refine ⟨?_, rfl, hg'⟩
  simpa [latchGaps] using hgaps

end Sys2Proof.Machine
end
